-- ==== Sys2Proof/Word.lean ====
section
/-! DEFINITION. The machine's words (00_scope.md rules R7 to R9): unsigned bit vectors, bit 0 least significant. -/

namespace Sys2Proof

/-- A register, a memory cell, an operand byte: 8 bits, 0 to 255 (R9). -/
abbrev Byte := BitVec 8

/-- A value of `pc`, of `PLIM` or of a fault record's `info`: 9 bits (R8, R22, R28, R29). -/
abbrev Word9 := BitVec 9

/-- One value of the output channel: 16 bits, `OUT_WIDTH` (R8, R31). -/
abbrev OutWord := BitVec 16

end Sys2Proof
end

