-- ==== Sys2Proof/Config.lean ====
section
/-! DEFINITION. What an implementation fixes (00_scope.md rules R7 and R8). R7's constants stand here. R8's parameters
are the fields of `Config`; the values the spec takes for them are `Sys2Proof.config` in Decode.lean. No value of this
hardware is left free (R86; 93_implementation_defined.md section 1), so there is no opaque constant. -/

namespace Sys2Proof

/-- `MEM_SIZE`, the number of memory cells (R7). -/
abbrev Config.memSize : Nat := 256

/-- `NREG`, the number of registers (R7). -/
abbrev Config.numRegs : Nat := 8

/-- `SP_INIT`, the stack pointer's reset value and the empty-stack limit of POP (R7, R21, R113). -/
abbrev Config.spInit : Byte := 0xF4

/-- The parameters the source leaves open (R8). -/
structure Config where
  /-- `OPC_HALT`. -/
  opcHalt : Byte
  /-- `OPC_LOAD_IMMEDIATE`. -/
  opcLoadImmediate : Byte
  /-- `OPC_PRINT_REGISTER`. -/
  opcPrintRegister : Byte
  /-- `OPC_MULTIPLY`. -/
  opcMultiply : Byte
  /-- `OPC_PUSH`. -/
  opcPush : Byte
  /-- `OPC_POP`. -/
  opcPop : Byte
  /-- `OPC_COMPARE`. -/
  opcCompare : Byte
  /-- `OPC_JUMP`. -/
  opcJump : Byte
  /-- `OPC_JUMP_IF_EQUAL`. -/
  opcJumpIfEqual : Byte
  /-- `OPC_JUMP_IF_NOT_EQUAL`. -/
  opcJumpIfNotEqual : Byte
  /-- `CHECK_UNDERFLOW`: POP with SP >= `SP_INIT` faults (R113). -/
  checkUnderflow : Bool
  /-- `CHECK_OVERFLOW`: PUSH with new SP < `PLIM` faults (R110). -/
  checkOverflow : Bool
  deriving DecidableEq, Repr

/-- The ten opcode bytes, in the order of R64's table. -/
def Config.opcodes (c : Config) : List Byte :=
  [c.opcHalt, c.opcLoadImmediate, c.opcPrintRegister, c.opcMultiply, c.opcPush, c.opcPop, c.opcCompare, c.opcJump,
    c.opcJumpIfEqual, c.opcJumpIfNotEqual]

end Sys2Proof
end

