-- ==== Sys2Proof/Machine/State.lean ====
section
/-! DEFINITION. The architectural state, all of it (10_state.md rule R15), its reset value (R34), and the reasons a
step can stop. -/

namespace Sys2Proof.Machine

/-- The execution state (R27). -/
inductive RunState where
  /-- Steps are taken. -/
  | running
  /-- A HALT has completed (R82). -/
  | halted
  /-- A check has failed; the fault record says which (R140). -/
  | faulted
  deriving DecidableEq, Repr

/-- The flags register's three named bits (R24). Their places in `fl[2:0]` are visible to no instruction, only to the
status port (`Ports.flagBits`). -/
structure Flags where
  /-- Equal, `fl.E`. -/
  e : Bool
  /-- Less-than, `fl.L`. -/
  l : Bool
  /-- Greater-than, `fl.G`. -/
  g : Bool
  deriving DecidableEq, Repr

/-- The seven fault kinds (R129). -/
inductive FaultKind where
  /-- An address outside 0 to 255 (R130). -/
  | addressFault
  /-- A register index outside 0 to 7 (R131). -/
  | registerFault
  /-- An ALU select other than MUL and ADD; no instruction causes it (R133, R105). -/
  | unsupportedOperation
  /-- A byte that is not one of the ten opcodes (R132). -/
  | unknownOpcode
  /-- POP with SP at or above `SP_INIT` (R134). -/
  | underflowFault
  /-- PUSH whose new SP is below `PLIM` (R135). -/
  | stackOverflow
  /-- A bad line of the image; the loader's, never in a run (R137). -/
  | loadFormatFault
  deriving DecidableEq, Repr

/-- What a failed check reports: `raise kind(info)` (R11, R141). -/
structure Trap where
  /-- The fault kind. -/
  kind : FaultKind
  /-- The offending value. -/
  info : Word9
  deriving DecidableEq, Repr

/-- The fault record `(kind, info, fpc)` (R28). -/
structure FaultRecord where
  /-- The fault kind. -/
  kind : FaultKind
  /-- The offending value (R141). -/
  info : Word9
  /-- `pc` at the start of the faulting instruction. -/
  fpc : Word9
  deriving DecidableEq, Repr

/-- The memory array: the cells that differ from what an unlisted address reads as, by rising address. -/
abbrev Memory := List Host.Cell

/-- What an unlisted address reads as: memory is zero-filled at reset, and that zero is a guaranteed value (R34, R154). -/
abbrev Memory.unlisted : Byte := 0

/-- The one canonical form: addresses strictly rising and inside the address space, no cell equal to the unlisted value. -/
abbrev Memory.wf (m : Memory) : Prop :=
  m.Pairwise (fun c d => c.1 < d.1) ∧ ∀ c ∈ m, c.1 < Config.memSize ∧ c.2 ≠ Memory.unlisted

/-- The complete state of the core (R15). -/
structure State where
  /-- The register file `x[0..7]`; `x[7]` is SP (R16, R17). -/
  x : Vector Byte 8
  /-- The instruction pointer (R22). -/
  pc : Word9
  /-- The flags register (R24). -/
  fl : Flags
  /-- The memory `mem[0..255]` (R40). -/
  mem : Memory
  /-- The execution state (R27). -/
  state : RunState
  /-- The fault record (R28). -/
  fault : Option FaultRecord
  /-- The program limit `PLIM` (R29). -/
  plim : Word9
  /-- The emitted values, oldest first (R31). -/
  out : List OutWord
  deriving DecidableEq, Repr

/-- Every field at R34's value after reset. No program is in it: memory is all zero and `PLIM` is 0 (log entry 14). -/
def State.reset : State where
  x := #v[0, 0, 0, 0, 0, 0, 0, Config.spInit]
  pc := 0
  fl := { e := false, l := false, g := false }
  mem := []
  state := .running
  fault := none
  plim := 0
  out := []

/-- The stops of a step that the spec gives no entry for. There are none, so the type has no constructor: every fault
of this hardware has a described entry (R140) and is therefore a NEXT state, with `state = faulted` (log entry 2). Nobody
raises a stop of this type; that is safe, since a stop could only make a true claim unprovable. -/
inductive Fault where
  deriving DecidableEq, Repr

/-- Why an instruction has no meaning. -/
inductive Refusal where
  /-- Raised by an arm of `exec` for an instruction that has no meaning yet, by its mnemonic; no arm does. Safe. -/
  | notModelled (mnemonic : String)
  deriving DecidableEq, Repr

end Sys2Proof.Machine
end

