-- ==== Sys2Proof/Machine/Ops.lean ====
section
/-! DEFINITION. The named operations over memory and registers (00_scope.md rule R11), taking a fault (60_exceptions.md
rule R140), the pc update (40_fetch_decode_cycle.md rule R81). Every bounds check of the machine is here, once. -/

namespace Sys2Proof.Machine

/-- The outcome of a step of this machine. -/
abbrev Result := Host.Outcome State Fault Refusal

/-! ### Raising -/

/-- `raise AddressFault(a)` (R130, R141). -/
def Trap.address (a : Nat) : Trap := { kind := .addressFault, info := BitVec.ofNat 9 a }

/-- `raise RegisterFault(i)` (R131, R141). -/
def Trap.register (i : Byte) : Trap := { kind := .registerFault, info := i.setWidth 9 }

/-- `raise UnknownOpcode(op)` (R132, R141). -/
def Trap.opcode (op : Byte) : Trap := { kind := .unknownOpcode, info := op.setWidth 9 }

/-- `raise UnderflowFault(sp)` (R134, R141). -/
def Trap.underflow (sp : Byte) : Trap := { kind := .underflowFault, info := sp.setWidth 9 }

/-- `raise StackOverflow(nsp)` (R135, R141). -/
def Trap.overflow (nsp : Byte) : Trap := { kind := .stackOverflow, info := nsp.setWidth 9 }

/-- `raise UnsupportedOperation` (R133); its info is 0 (R141). -/
def Trap.unsupported : Trap := { kind := .unsupportedOperation, info := 0 }

/-- `LoadFormatFault` (R137); the core records no info for it (R129). -/
def Trap.loadFormat : Trap := { kind := .loadFormatFault, info := 0 }

/-- Taking a fault (R140): no write of the instruction is performed, so `s` is the state the step began in;
`state <- Faulted`, `fault <- (K, info, p)`. There is no handler, no vector and no return (R142). -/
def State.takeFault (s : State) (t : Trap) : State :=
  { s with state := .faulted, fault := some { kind := t.kind, info := t.info, fpc := s.pc } }

/-- The end of an instruction that began in `s`: commit what the handler gives, or take the fault it raised (R12, R140). -/
def finish (s : State) (r : Except Trap State) : Result :=
  match r with
  | .ok t => .next t
  | .error t => .next (s.takeFault t)

/-- Reset (R153): every piece of state is re-created, from whatever state; the only way out of Halted and Faulted (R76). -/
def State.hostReset (_s : State) : State := State.reset

/-- A step is taken only in Running (R76). -/
def State.isRunning (s : State) : Bool := s.state == .running

/-! ### Memory -/

/-- The value of `mem[a]`. -/
def Memory.read (m : Memory) (a : Nat) : Byte :=
  (m.lookup a).getD Memory.unlisted

/-- A cell put at its place in the rising order. -/
def Memory.insertCell (c : Host.Cell) : Memory → Memory
  | [] => [c]
  | d :: m => if c.1 < d.1 then c :: d :: m else d :: Memory.insertCell c m

/-- `mem[a] <- v`, keeping the canonical form: the unlisted value removes the cell. -/
def Memory.write (m : Memory) (a : Nat) (v : Byte) : Memory :=
  let others := m.filter (fun c => c.1 != a)
  if v = Memory.unlisted then others else Memory.insertCell (a, v) others

/-- `MemRead(a, 1)` (R11, R42): the check is on the unreduced address. -/
def memRead (a : Nat) (s : State) : Except Trap Byte :=
  if a < Config.memSize then .ok (s.mem.read a) else .error (Trap.address a)

/-- The memory array replaced. -/
def State.setMem (s : State) (m : Memory) : State := { s with mem := m }

/-- `MemWrite(a, 1, v)` (R11, R42). -/
def memWrite (a : Nat) (v : Byte) (s : State) : Except Trap State :=
  if a < Config.memSize then .ok (s.setMem (s.mem.write a v)) else .error (Trap.address a)

/-! ### Registers -/

/-- The stack pointer's index, `SP_INDEX` (R7, R17). -/
def spIndex : Fin Config.numRegs := 7

/-- `x[i]`. No register is hardwired or banked (R17). -/
def State.getReg (s : State) (i : Fin Config.numRegs) : Byte := s.x[i.val]

/-- `x[i] <- v`. -/
def State.setReg (s : State) (i : Fin Config.numRegs) (v : Byte) : State :=
  { s with x := s.x.set i.val v }

/-- The bounds check of the register file (R19): the whole byte is compared, never masked to 3 bits. -/
def regIndex (i : Byte) : Except Trap (Fin Config.numRegs) :=
  if h : i.toNat < Config.numRegs then .ok ⟨i.toNat, h⟩ else .error (Trap.register i)

/-- `RegRead(i)` (R11). -/
def regRead (i : Byte) (s : State) : Except Trap Byte :=
  match regIndex i with
  | .ok r => .ok (s.getReg r)
  | .error t => .error t

/-- `RegWrite(i, v)` (R11, R20): values are taken modulo 256 on write. -/
def regWrite (i : Byte) (v : Nat) (s : State) : Except Trap State :=
  match regIndex i with
  | .ok r => .ok (s.setReg r (BitVec.ofNat 8 v))
  | .error t => .error t

/-! ### Output and the pc -/

/-- `Emit(v)` (R11, R31): the newest value stands last. -/
def State.emit (s : State) (v : OutWord) : State := { s with out := s.out ++ [v] }

/-- Input 0 of the pc multiplexer: `pc <- p + 1 + n`, in 9 bits (R81, R84). -/
def State.advance (s : State) (n : Nat) : State := { s with pc := s.pc + BitVec.ofNat 9 (1 + n) }

/-- Input 1 of the pc multiplexer: `pc <- t` (R81, R84). -/
def State.jumpTo (s : State) (t : Word9) : State := { s with pc := t }

/-- `state <- Halted` (R82). -/
def State.halt (s : State) : State := { s with state := .halted }

end Sys2Proof.Machine
end

