-- ==== Sys2Proof/Machine/Operands.lean ====
section
/-! DEFINITION. The operand forms: register index and literal (30_encoding.md rule R60), the stack's pre-decrement and
post-increment addressing (44_stack.md rule R108), the register-indirect jump target (46_control_flow.md rule R121). -/

namespace Sys2Proof.Machine

/-- The literal of LOAD-IMMEDIATE: the operand byte unchanged, unsigned (R61). -/
def literalOperand (b : Byte) : Nat := b.toNat

/-- Two register operands, the first checked before the second, then both read (R102, R118, R136). -/
def registerPair (a b : Byte) (s : State) : Except Trap (Byte × Byte) :=
  match regRead a s with
  | .error t => .error t
  | .ok va =>
    match regRead b s with
    | .error t => .error t
    | .ok vb => .ok (va, vb)

/-- A jump's target: the register's value, zero-extended to the 9-bit `pc`; absolute (R121). -/
def jumpTarget (a : Byte) (s : State) : Except Trap Word9 :=
  match regRead a s with
  | .error t => .error t
  | .ok v => .ok (v.setWidth 9)

/-- The stack pointer, an alias of `x[7]` (R10, R17). -/
def State.sp (s : State) : Byte := s.getReg spIndex

/-- `sp <- v`; a register write, so 8 bits (R20). -/
def State.setSp (s : State) (v : Byte) : State := s.setReg spIndex v

/-- Where PUSH stores: the new SP, `(x[7] - 1) mod 256` (R109). -/
def pushAddress (s : State) : Byte := s.sp - 1

/-- Where POP reads: SP (R112). -/
def popAddress (s : State) : Byte := s.sp

/-- What POP leaves in SP: `(x[7] + 1) mod 256` (R112). -/
def popIncrement (s : State) : Byte := s.sp + 1

end Sys2Proof.Machine
end

