-- ==== Sys2Proof/Machine/Alu.lean ====
section
/-! DEFINITION. The ALU and MULTIPLY (43_alu.md). -/

namespace Sys2Proof.Machine

/-- The ALU's operation select: a symbolic name of which two are recognised (R99). -/
inductive AluSelect where
  /-- `MUL`: 8 x 8 to 16 bits, to the output. -/
  | mul
  /-- `ADD`: 8 + 8 to 8 bits, to the destination register. -/
  | add
  /-- Any other name. -/
  | other (name : String)
  deriving DecidableEq, Repr

/-- The full product of two bytes, 0 to 65025, not reduced modulo 256 (R100, R101).
UNVERIFIED: the 16-bit width is the spec's decision D11 (log entry 9, unsafe). -/
def product (va vb : Byte) : OutWord := va.setWidth 16 * vb.setWidth 16

/-- The ALU (R99, R100): MUL emits and stores nothing, ADD stores with 8-bit wraparound, any other select raises
UnsupportedOperation and reads nothing. No flag is written (R26). -/
def alu (sel : AluSelect) (a b : Byte) (s : State) : Except Trap State :=
  match sel with
  | .mul =>
    match registerPair a b s with
    | .ok (va, vb) => .ok (s.emit (product va vb))
    | .error t => .error t
  | .add =>
    match registerPair a b s with
    | .ok (va, vb) => regWrite a (va.toNat + vb.toNat) s
    | .error t => .error t
  | .other _ => .error Trap.unsupported

/-- MULTIPLY (R102): display-only; the decoder drives the ALU's select with MUL (R105). -/
def execMultiply (a b : Byte) (s : State) : Result :=
  finish s (match alu .mul a b s with
    | .ok t => .ok (t.advance 2)
    | .error t => .error t)

end Sys2Proof.Machine
end

