-- ==== Sys2Proof/Machine/Flags.lean ====
section
/-! DEFINITION. The comparator and the flags register (45_compare.md rules R117 to R120). No other part of the machine
computes a flag (R26). -/

namespace Sys2Proof.Machine

/-- The one three-way comparison of two unsigned bytes, from which all three flags are set together (R117, R118). -/
def compareFlags (va vb : Byte) : Flags where
  e := va == vb
  l := decide (va.toNat < vb.toNat)
  g := decide (va.toNat > vb.toNat)

/-- `SetFlags(e, l, g)`: replaces all three at once (R11). -/
def State.setFlags (s : State) (f : Flags) : State := { s with fl := f }

/-- The condition of JUMP-IF-EQUAL; its complement is that of JUMP-IF-NOT-EQUAL (R124, R126). Only `fl.E` is read (R120). -/
def equalSet (s : State) : Bool := s.fl.e

end Sys2Proof.Machine
end

