-- ==== Sys2Proof/Machine/Compare.lean ====
section
/-! DEFINITION. COMPARE (45_compare.md). The comparator is the handler's own, not the ALU's (R117). -/

namespace Sys2Proof.Machine

/-- COMPARE (R118). -/
def execCompare (a b : Byte) (s : State) : Result :=
  finish s (match registerPair a b s with
    | .ok (va, vb) => .ok ((s.setFlags (compareFlags va vb)).advance 2)
    | .error t => .error t)

end Sys2Proof.Machine
end

