-- ==== Sys2Proof/Machine/ControlFlow.lean ====
section
/-! DEFINITION. JUMP, JUMP-IF-EQUAL, JUMP-IF-NOT-EQUAL (46_control_flow.md). -/

namespace Sys2Proof.Machine

/-- A taken transfer: the register is bounds-checked and its value is the next pc (R121, R122). -/
def takeJump (a : Byte) (s : State) : Except Trap State :=
  match jumpTarget a s with
  | .ok t => .ok (s.jumpTo t)
  | .error t => .error t

/-- JUMP (R122). -/
def execJump (a : Byte) (s : State) : Result :=
  finish s (takeJump a s)

/-- JUMP-IF-EQUAL (R124): untaken, the operand is not examined.
UNVERIFIED: that last point is the spec's decision D10 (log entry 8, unsafe). -/
def execJumpIfEqual (a : Byte) (s : State) : Result :=
  finish s (if equalSet s then takeJump a s else .ok (s.advance 1))

/-- JUMP-IF-NOT-EQUAL (R126): untaken, the operand is not examined.
UNVERIFIED: that last point is the spec's decision D10 (log entry 8, unsafe). -/
def execJumpIfNotEqual (a : Byte) (s : State) : Result :=
  finish s (if equalSet s then .ok (s.advance 1) else takeJump a s)

end Sys2Proof.Machine
end

