-- ==== Sys2Proof/Machine/Halt.lean ====
section
/-! DEFINITION. HALT (41_halt.md). -/

namespace Sys2Proof.Machine

/-- HALT (R93): the pc update of step 4 and then `state <- Halted` of step 5 (R81, R82).
UNVERIFIED: that HALT advances `pc` is the spec's decision D4 (log entry 5, unsafe). -/
def execHalt (s : State) : Result :=
  finish s (.ok (s.advance 0).halt)

end Sys2Proof.Machine
end

