-- ==== Sys2Proof/Machine/LoadPrint.lean ====
section
/-! DEFINITION. LOAD-IMMEDIATE and PRINT-REGISTER (42_load_print.md). -/

namespace Sys2Proof.Machine

/-- LOAD-IMMEDIATE (R95). -/
def execLoadImmediate (a b : Byte) (s : State) : Result :=
  finish s (match regWrite a (literalOperand b) s with
    | .ok t => .ok (t.advance 2)
    | .error t => .error t)

/-- PRINT-REGISTER (R97): emits the register zero-extended to 16 bits. -/
def execPrintRegister (a : Byte) (s : State) : Result :=
  finish s (match regRead a s with
    | .ok v => .ok ((s.emit (v.setWidth 16)).advance 1)
    | .error t => .error t)

end Sys2Proof.Machine
end

