-- ==== Sys2Proof/Syntax.lean ====
section
/-! DEFINITION. The ten instructions (30_encoding.md rule R64), one constructor per row of spec/opcode_table.json. -/

namespace Sys2Proof

/-- One instruction. Every operand is the whole operand byte, 0 to 255: a register index of 8 or more is an
instruction like any other, which faults only when its handler uses the index (R60, R69). -/
inductive Instr where
  /-- HALT (HLT), format F0 (R93). -/
  | halt
  /-- LOAD-IMMEDIATE (LDI) regIndex, literal, format F2 (R95). -/
  | loadImmediate (a b : Byte)
  /-- PRINT-REGISTER (PRN) regIndex, format F1 (R97). -/
  | printRegister (a : Byte)
  /-- MULTIPLY (MUL) regA, regB, format F2 (R102). -/
  | multiply (a b : Byte)
  /-- PUSH regIndex, format F1 (R109). -/
  | push (a : Byte)
  /-- POP regIndex, format F1 (R112). -/
  | pop (a : Byte)
  /-- COMPARE (CMP) regA, regB, format F2 (R118). -/
  | compare (a b : Byte)
  /-- JUMP (JMP) regIndex, format F1 (R122). -/
  | jump (a : Byte)
  /-- JUMP-IF-EQUAL (JEQ) regIndex, format F1 (R124). -/
  | jumpIfEqual (a : Byte)
  /-- JUMP-IF-NOT-EQUAL (JNE) regIndex, format F1 (R126). -/
  | jumpIfNotEqual (a : Byte)
  deriving DecidableEq, Repr

end Sys2Proof
end

