-- ==== Sys2Proof/WellFormed.lean ====
section
/-! DEFINITION. The static checks: on an instruction, on a configuration, on a program image. -/

namespace Sys2Proof

/-- Every instruction is well formed: an operand byte is never by itself an illegal encoding (R69), and its type
already bounds it to 0 to 255 (R60). One case per constructor, so that a new instruction must be considered here. -/
def Instr.wellFormed : Instr → Bool
  | .halt => true
  | .loadImmediate _ _ => true
  | .printRegister _ => true
  | .multiply _ _ => true
  | .push _ => true
  | .pop _ => true
  | .compare _ _ => true
  | .jump _ => true
  | .jumpIfEqual _ => true
  | .jumpIfNotEqual _ => true

/-- The ten opcode bytes are pairwise distinct, so that the dispatch table is a function (R66). -/
abbrev Config.wellFormed (c : Config) : Prop := c.opcodes.Nodup

/-- An image fits memory: 0 to 256 bytes (R157 premise L6, R160). -/
abbrev imageWellFormed (image : List Byte) : Prop := image.length ≤ Config.memSize

end Sys2Proof
end

