-- ==== Sys2Proof/Decode.lean ====
section
/-! DEFINITION. The instruction decoder and, after it, the encoder (30_encoding.md rules R58 to R70). The decoder is
total: any bytes give an instruction or a rejection by name. -/

namespace Sys2Proof

/-- The values the spec takes for its parameters (R8, R64). `0x01`, `0x82` and `0x47` are the source's.
UNVERIFIED: the other seven opcode bytes are the spec's own general knowledge (D1; log entry 1, unsafe).
UNVERIFIED: both stack checks on (D7, D8; log entries 6 and 7, safe). -/
def config : Config where
  opcHalt := 0x01
  opcLoadImmediate := 0x82
  opcPrintRegister := 0x47
  opcMultiply := 0xA2
  opcPush := 0x45
  opcPop := 0x46
  opcCompare := 0xA7
  opcJump := 0x54
  opcJumpIfEqual := 0x55
  opcJumpIfNotEqual := 0x56
  checkUnderflow := true
  checkOverflow := true

/-- One entry of the dispatch table: the instruction it selects, still lacking its operand bytes (R59, R62). -/
inductive Entry where
  /-- Format F0. -/
  | noOperand (i : Instr)
  /-- Format F1. -/
  | oneOperand (mk : Byte → Instr)
  /-- Format F2. -/
  | twoOperands (mk : Byte → Byte → Instr)

/-- The operand count is an attribute of the table entry (R62). -/
def Entry.operandCount : Entry → Nat
  | .noOperand _ => 0
  | .oneOperand _ => 1
  | .twoOperands _ => 2

/-- The dispatch table, in R64's order. -/
def dispatchTable (c : Config) : List (Byte × Entry) :=
  [(c.opcHalt, .noOperand .halt),
   (c.opcLoadImmediate, .twoOperands .loadImmediate),
   (c.opcPrintRegister, .oneOperand .printRegister),
   (c.opcMultiply, .twoOperands .multiply),
   (c.opcPush, .oneOperand .push),
   (c.opcPop, .oneOperand .pop),
   (c.opcCompare, .twoOperands .compare),
   (c.opcJump, .oneOperand .jump),
   (c.opcJumpIfEqual, .oneOperand .jumpIfEqual),
   (c.opcJumpIfNotEqual, .oneOperand .jumpIfNotEqual)]

/-- All eight bits of the opcode byte are compared with the table (R62). -/
def lookupOpcode (c : Config) (op : Byte) : Option Entry :=
  (dispatchTable c).lookup op

/-- The decoder over any source of bytes: byte `k` of the instruction is `readAt k`. The opcode is looked up before any
operand byte is read, then exactly the entry's operand bytes are read, the first before the second (R78, R79, R87). -/
def decodeFrom {ε : Type} (c : Config) (readAt : Nat → Except ε Byte) (unknown : Byte → ε) : Except ε Instr :=
  match readAt 0 with
  | .error e => .error e
  | .ok op =>
    match lookupOpcode c op with
    | none => .error (unknown op)
    | some (.noOperand i) => .ok i
    | some (.oneOperand mk) =>
      match readAt 1 with
      | .error e => .error e
      | .ok a => .ok (mk a)
    | some (.twoOperands mk) =>
      match readAt 1 with
      | .error e => .error e
      | .ok a =>
        match readAt 2 with
        | .error e => .error e
        | .ok b => .ok (mk a b)

/-- Why a list of bytes is no instruction. -/
inductive DecodeError where
  /-- Byte `k` of the instruction is not there. -/
  | missingByte (k : Nat)
  /-- The first byte is not in the dispatch table (R67). -/
  | unknownOpcode (op : Byte)
  deriving DecidableEq, Repr

/-- Byte `k` of a list of bytes. -/
def byteAt (bytes : List Byte) (k : Nat) : Except DecodeError Byte :=
  match bytes[k]? with
  | some b => .ok b
  | none => .error (.missingByte k)

/-- The operand count `n` of an instruction (R59, R64). -/
def Instr.operandCount : Instr → Nat
  | .halt => 0
  | .loadImmediate _ _ => 2
  | .printRegister _ => 1
  | .multiply _ _ => 2
  | .push _ => 1
  | .pop _ => 1
  | .compare _ _ => 2
  | .jump _ => 1
  | .jumpIfEqual _ => 1
  | .jumpIfNotEqual _ => 1

/-- The length of an instruction in bytes, `1 + operandCount` (R63). -/
def Instr.length (i : Instr) : Nat := 1 + i.operandCount

/-- Decode the instruction at the head of a list of bytes; the second part is what follows it. -/
def decodeWith (c : Config) (bytes : List Byte) : Except DecodeError (Instr × List Byte) :=
  match decodeFrom c (byteAt bytes) .unknownOpcode with
  | .ok i => .ok (i, bytes.drop i.length)
  | .error e => .error e

/-- The decoder under the spec's parameter values. -/
def decode (bytes : List Byte) : Except DecodeError (Instr × List Byte) :=
  decodeWith config bytes

/-- The bytes of an instruction, lowest address first: opcode, first operand, second operand (R59, R64). -/
def encodeWith (c : Config) : Instr → List Byte
  | .halt => [c.opcHalt]
  | .loadImmediate a b => [c.opcLoadImmediate, a, b]
  | .printRegister a => [c.opcPrintRegister, a]
  | .multiply a b => [c.opcMultiply, a, b]
  | .push a => [c.opcPush, a]
  | .pop a => [c.opcPop, a]
  | .compare a b => [c.opcCompare, a, b]
  | .jump a => [c.opcJump, a]
  | .jumpIfEqual a => [c.opcJumpIfEqual, a]
  | .jumpIfNotEqual a => [c.opcJumpIfNotEqual, a]

/-- The encoder under the spec's parameter values. -/
def encode (i : Instr) : List Byte :=
  encodeWith config i

/-- The three bytes, lowest address first, of a word numbered as spec/opcode_table.json numbers it: byte `k` is bits
`8k+7..8k`, and every bit at or above `nbits` is 0. -/
def tableBytes (nbits w : Nat) : List Byte :=
  [0, 1, 2].map fun k => if 8 * k < nbits then BitVec.ofNat 8 (w >>> (8 * k)) else 0

/-- The instruction the decoder reads from a word of the opcode table. -/
def decodeTableWord (nbits w : Nat) : Option Instr :=
  match decode (tableBytes nbits w) with
  | .ok (i, _) => some i
  | .error _ => none

end Sys2Proof
end

