-- ==== Sys2Proof/Machine/Stack.lean ====
section
/-! DEFINITION. The stack unit, PUSH and POP (44_stack.md). The stack lives in memory (R107; log entry 11). -/

namespace Sys2Proof.Machine

/-- PUSH's checks and writes (R109): the index, then the limit, then SP, then the value read AFTER the SP write, so
that PUSH of register 7 stores the new SP (log entry 12). With `checkOverflow` off there is no limit check (R110). -/
def push (c : Config) (a : Byte) (s : State) : Except Trap State :=
  match regIndex a with
  | .error t => .error t
  | .ok r =>
    let nsp := pushAddress s
    if c.checkOverflow = true ∧ nsp.toNat < s.plim.toNat then .error (Trap.overflow nsp)
    else
      let s1 := s.setSp nsp
      memWrite nsp.toNat (s1.getReg r) s1

/-- POP's checks and writes (R112): the index, then the limit, then the register, then SP incremented from its value
AFTER that write, so that POP into register 7 leaves the popped byte plus one (log entry 12). With `checkUnderflow` off
there is no limit check (R8). -/
def pop (c : Config) (a : Byte) (s : State) : Except Trap State :=
  match regIndex a with
  | .error t => .error t
  | .ok r =>
    if c.checkUnderflow = true ∧ Config.spInit.toNat ≤ s.sp.toNat then .error (Trap.underflow s.sp)
    else
      match memRead (popAddress s).toNat s with
      | .error t => .error t
      | .ok v =>
        let s1 := s.setReg r v
        .ok (s1.setSp (popIncrement s1))

/-- PUSH (R109). -/
def execPush (a : Byte) (s : State) : Result :=
  finish s (match push config a s with
    | .ok t => .ok (t.advance 1)
    | .error t => .error t)

/-- POP (R112). -/
def execPop (a : Byte) (s : State) : Result :=
  finish s (match pop config a s with
    | .ok t => .ok (t.advance 1)
    | .error t => .error t)

end Sys2Proof.Machine
end

