-- ==== Sys2Proof/Machine/Fetch.lean ====
section
/-! DEFINITION. The instruction fetch unit over the decoder (40_fetch_decode_cycle.md rules R77 to R79, R87). -/

namespace Sys2Proof.Machine

/-- Steps 1 and 2 of the protocol: the bytes at `pc`, `pc+1`, `pc+2` as far as the instruction needs them, each address
formed without reduction and bounds-checked (R77, R79). Nothing fetched is kept (R33). -/
def fetch (s : State) : Except Trap Instr :=
  decodeFrom config (fun k => memRead (s.pc.toNat + k) s) Trap.opcode

/-- A program's bytes stored at consecutive addresses; addresses past the end of memory store nothing. -/
def storeBytes (m : Memory) (a : Nat) : List Byte → Memory
  | [] => m
  | b :: bs => storeBytes (if a < Config.memSize then m.write a b else m) (a + 1) bs

end Sys2Proof.Machine
end

