-- ==== Sys2Proof/Machine/Step.lean ====
section
/-! DEFINITION. One step of the machine (40_fetch_decode_cycle.md rule R83), and how a word is put where it fetches. -/

namespace Sys2Proof.Machine

/-- One step (R83). In Halted and Faulted nothing is fetched and nothing changes (R76; log entry 3). A fault of the
fetch or of the decoder is taken with the pc of the instruction that raised it (R140). -/
def step (s : State) : Host.Outcome State Fault Refusal :=
  if s.isRunning then
    match fetch s with
    | .ok i => exec i s
    | .error t => finish s (.error t)
  else .next s

/-- The instruction of a word of the opcode table, stored at `pc`, in a machine that takes steps. From reset this
changes memory only; it stands for the loader's writes (log entry 14). -/
def State.withFetchWord (s : State) (nbits w : Nat) : State :=
  { s with mem := storeBytes s.mem s.pc.toNat (tableBytes nbits w), state := .running }

end Sys2Proof.Machine
end

