-- ==== Sys2Proof/Machine/Loader.lean ====
section
/-! DEFINITION. The loader's duties, by which the launch state is defined (70_reset_and_hazards.md rules R157 to R161),
and the image's text format as the loader reads it (30_encoding.md rule R73). A failed load is an error and there is
no launch (R160). -/

namespace Sys2Proof.Machine

/-- Write image bytes at consecutive addresses (R158); the bounds check of the memory refuses address 256 (R160). -/
def loadFrom (a : Nat) : List Byte → State → Except Trap State
  | [], s => .ok s
  | b :: bs, s =>
    match memWrite a b s with
    | .ok t => loadFrom (a + 1) bs t
    | .error t => .error t

/-- `PLIM <- n` (R159). -/
def State.setPlim (s : State) (n : Nat) : State := { s with plim := BitVec.ofNat 9 n }

/-- The launch state of an image (R157): reset, image byte `i` in `mem[i]`, `PLIM` the image's length. -/
def State.launch (image : List Byte) : Except Trap State :=
  match loadFrom 0 image State.reset with
  | .ok s => .ok (s.setPlim image.length)
  | .error t => .error t

/-- A binary digit. -/
def isBinaryDigit (ch : Char) : Bool := ch == '0' || ch == '1'

/-- The white space trimmed from a line: space, tab, line feed, vertical tab, form feed, carriage return.
DESIGN CHOICE: R73 names no characters (log entry 16). -/
def isBlank (ch : Char) : Bool := ch.toNat == 32 || (9 ≤ ch.toNat && ch.toNat ≤ 13)

/-- A line's text before the first `#`, trimmed of surrounding white space (R73). -/
def lineBody (line : List Char) : List Char :=
  let front := (line.takeWhile (fun ch => ch != '#')).dropWhile isBlank
  (front.reverse.dropWhile isBlank).reverse

/-- A base-2 numeral's value, the leftmost digit most significant (R73). -/
def binaryValue (digits : List Char) : Nat :=
  digits.foldl (fun n ch => 2 * n + (if ch == '1' then 1 else 0)) 0

/-- One line of the image (R73): nothing when it has no binary digit; a byte when it is a base-2 numeral of at most 255;
otherwise LoadFormatFault. DESIGN CHOICE: a numeral is a run of digits and nothing else (log entry 16). -/
def parseLine (line : List Char) : Except Trap (Option Byte) :=
  let body := lineBody line
  if body.any isBinaryDigit = false then .ok none
  else if body.all isBinaryDigit = true ∧ binaryValue body < 256 then .ok (some (BitVec.ofNat 8 (binaryValue body)))
  else .error Trap.loadFormat

/-- The image of a text, its lines in file order (R73). -/
def parseImage : List (List Char) → Except Trap (List Byte)
  | [] => .ok []
  | line :: lines =>
    match parseLine line with
    | .error t => .error t
    | .ok none => parseImage lines
    | .ok (some b) =>
      match parseImage lines with
      | .error t => .error t
      | .ok bs => .ok (b :: bs)

/-- The launch state of a text (R73, R158). DESIGN CHOICE: every line is read before any byte is written, so that a text
which holds a bad line and also yields more than 256 bytes fails with LoadFormatFault, wherever the bad line stands; the
spec names both faults (R73, R137, R160) and gives them no order (log entry 28). -/
def State.launchText (lines : List (List Char)) : Except Trap State :=
  match parseImage lines with
  | .ok image => State.launch image
  | .error t => .error t

end Sys2Proof.Machine
end

