-- ==== Sys2Proof/Machine/Ports.lean ====
section
/-! DEFINITION. The core's ports and the host's actions on it (70_reset_and_hazards.md rules R162 to R166, R175). The
`run` input and the loader's failure are the host's side: they are no state of the core (R163; log entry 15). -/

namespace Sys2Proof.Machine

/-- `st_state[1:0]` (R27, R162). -/
def RunState.code : RunState → BitVec 2
  | .running => 0
  | .halted => 1
  | .faulted => 2

/-- The kind's numeric code (R129). -/
def FaultKind.code : FaultKind → BitVec 3
  | .addressFault => 1
  | .registerFault => 2
  | .unsupportedOperation => 3
  | .unknownOpcode => 4
  | .underflowFault => 5
  | .stackOverflow => 6
  | .loadFormatFault => 7

/-- `st_fl[2:0]`: L, G, E in bits 2, 1, 0 (R24). UNVERIFIED: the order is the spec's own general knowledge
(D12; log entry 10), visible to no instruction. -/
def Ports.flagBits (f : Flags) : BitVec 3 := BitVec.ofBool f.l ++ BitVec.ofBool f.g ++ BitVec.ofBool f.e

/-- The status ports (R162). -/
structure StatusView where
  /-- `st_state`. -/
  state : BitVec 2
  /-- `st_fault_kind`; 0 = none. -/
  faultKind : BitVec 3
  /-- `st_fault_info`. -/
  faultInfo : Word9
  /-- `st_fault_pc`. -/
  faultPc : Word9
  /-- `st_pc`. -/
  pc : Word9
  /-- `st_fl`. -/
  fl : BitVec 3
  /-- `st_reg`. -/
  reg : Vector Byte 8
  deriving DecidableEq, Repr

/-- The read-only status view (R162). DESIGN CHOICE: with no fault, info and pc read 0 (log entry 15). -/
def Ports.status (s : State) : StatusView where
  state := s.state.code
  faultKind := match s.fault with | some f => f.kind.code | none => 0
  faultInfo := match s.fault with | some f => f.info | none => 0
  faultPc := match s.fault with | some f => f.fpc | none => 0
  pc := s.pc
  fl := Ports.flagBits s.fl
  reg := s.x

/-- What the trace collaborator sees (R166): `pc`, the three bytes there (a placeholder past 255), the registers. -/
structure TraceView where
  /-- `pc`. -/
  pc : Word9
  /-- `mem[pc]`, `mem[pc+1]`, `mem[pc+2]`. -/
  bytes : List (Option Byte)
  /-- The 8 register values. -/
  reg : Vector Byte 8
  deriving DecidableEq, Repr

/-- The trace view: a function of state that raises nothing and changes nothing (R166, R36). -/
def Ports.trace (s : State) : TraceView where
  pc := s.pc
  bytes := [0, 1, 2].map fun k =>
    if s.pc.toNat + k < Config.memSize then some (s.mem.read (s.pc.toNat + k)) else none
  reg := s.x

/-- The values the output port carries between two states of a run, in order (R165). -/
def Ports.emitted (s t : State) : List OutWord := t.out.drop s.out.length

/-- The core with the host's side of its ports. -/
structure System where
  /-- The core. -/
  core : State
  /-- The `run` input (R163). -/
  run : Bool
  /-- A loader write named an address of 256 or more: the load has failed (R164). -/
  loadFailed : Bool
  deriving DecidableEq, Repr

/-- What the host can do to the core (R175). -/
inductive HostAction where
  /-- `rst` (R153). -/
  | reset
  /-- `ld_we` with `ld_addr`, `ld_data` (R164). -/
  | loaderWrite (addr : Word9) (data : Byte)
  /-- `run` 0 to 1, with `ld_plim` sampled (R163, R159). -/
  | launch (plim : Word9)
  /-- Let the core take one step, if `run` is 1 (R163). -/
  | tick
  deriving DecidableEq, Repr

/-- The loader's write port: ignored while `run` is 1; an address of 256 or more writes nothing and fails the load (R164). -/
def System.loaderWrite (y : System) (addr : Word9) (data : Byte) : System :=
  if y.run then y
  else if addr.toNat < Config.memSize then { y with core := y.core.setMem (y.core.mem.write addr.toNat data) }
  else { y with loadFailed := true }

/-- Launch, once after a load that has not failed (R160, R163). -/
def System.launch (y : System) (plim : Word9) : System :=
  if y.run ∨ y.loadFailed then y else { y with core := { y.core with plim := plim }, run := true }

/-- One step of the core while `run` is 1. -/
def System.tick (y : System) : Host.Outcome System Fault Refusal :=
  if y.run then
    match step y.core with
    | .next t => .next { y with core := t }
    | .fault f => .fault f
    | .refused r => .refused r
  else .next y

/-- The system after one action of the host. -/
def System.act (y : System) : HostAction → Host.Outcome System Fault Refusal
  | .reset => .next { core := y.core.hostReset, run := false, loadFailed := false }
  | .loaderWrite addr data => .next (y.loaderWrite addr data)
  | .launch plim => .next (y.launch plim)
  | .tick => y.tick

/-- The system after a list of actions. -/
def System.actAll : List HostAction → System → Host.Outcome System Fault Refusal
  | [], y => .next y
  | h :: hs, y =>
    match y.act h with
    | .next z => System.actAll hs z
    | .fault f => .fault f
    | .refused r => .refused r

/-- The actions that load and launch an image from address `a` on: one write a byte, then `run` (R158, R163, R164). -/
def loadActions (a : Nat) : List Byte → List HostAction
  | [] => []
  | b :: bs => .loaderWrite (BitVec.ofNat 9 a) b :: loadActions (a + 1) bs

end Sys2Proof.Machine
end

