-- ==== Sys2Proof/Safety.lean ====
section
/-! DEFINITION. What counts as a good state and a good end of a run, in the terms the statements use. -/

namespace Sys2Proof.Machine

/-- A run has completed: it ends normally only in Halted (40_fetch_decode_cycle.md rule R89). -/
abbrev State.completed (s : State) : Prop := s.state = .halted

/-- A run has been aborted by a fault (R89, R140). -/
abbrev State.aborted (s : State) : Prop := s.state = .faulted

/-- What each kind may have recorded in a run whose program limit is `plim` (60_exceptions.md rules R129 to R137,
R141): AddressFault only 256; RegisterFault an index 8 to 255; UnknownOpcode a byte outside the dispatch table;
UnderflowFault an SP at or above `SP_INIT`; StackOverflow a new SP below `plim`; the other two kinds never. -/
def FaultRecord.plausible (plim : Word9) (f : FaultRecord) : Prop :=
  match f.kind with
  | .addressFault => f.info = 256
  | .registerFault => 8 ≤ f.info.toNat ∧ f.info.toNat ≤ 255
  | .unsupportedOperation => False
  | .unknownOpcode => f.info.toNat ≤ 255 ∧ f.info.setWidth 8 ∉ config.opcodes
  | .underflowFault => Config.spInit.toNat ≤ f.info.toNat ∧ f.info.toNat ≤ 255
  | .stackOverflow => f.info.toNat < plim.toNat ∧ f.info.toNat ≤ 255
  | .loadFormatFault => False

/-- The invariant of the machine: what the rules say of every state of a run. -/
structure Inv (s : State) : Prop where
  /-- The memory is in its canonical form. -/
  mem : s.mem.wf
  /-- `pc` is 0 to 256 (R22). -/
  pc : s.pc.toNat ≤ 256
  /-- `PLIM` is 0 to 256 (R29). -/
  plim : s.plim.toNat ≤ 256
  /-- `fl` is 000, 001, 100 or 010 (R25). -/
  fl : s.fl ∈ [⟨false, false, false⟩, ⟨true, false, false⟩, ⟨false, true, false⟩, ⟨false, false, true⟩]
  /-- There is a fault record exactly in Faulted (R28). -/
  fault : s.fault.isSome = true ↔ s.state = .faulted
  /-- The record names this pc, and what it names is possible (R28, R140, R141). -/
  record : ∀ f, s.fault = some f → f.fpc = s.pc ∧ f.plausible s.plim

end Sys2Proof.Machine
end

