-- ==== Sys2Proof/Certificates/Slice0/Obligations.lean ====
section
/-! DEFINITION. The statements about this machine, each `def Obligations.<Name> : Prop`, and before them the few words
they use (`Sys2Proof.Spec`): the fault state and the step of the spec, written from its rules and not from the model. -/

namespace Sys2Proof.Spec

open Sys2Proof.Machine

/-! ### Words of the statements -/

/-- The state a fault leaves when the step began in `s`: nothing but `state` and `fault` changes
(60_exceptions.md, Fault entry). -/
def faulted (s : State) (kind : FaultKind) (info : Word9) : State :=
  { s with state := .faulted, fault := some { kind := kind, info := info, fpc := s.pc } }

/-- `state` and the fault record as before, or the fault entry. -/
def keepsControl (s t : State) : Prop :=
  (t.state = s.state ∧ t.fault = s.fault) ∨ ∃ kind info, t = faulted s kind info

/-- Every byte of memory reads as before. -/
def keepsMemory (s t : State) : Prop := ∀ a, t.mem.read a = s.mem.read a

/-- The operand of a jump that is taken in `s`; none for an untaken conditional jump and for every other instruction. -/
def takenJump (i : Instr) (s : State) : Option Byte :=
  match i with
  | .jump a => some a
  | .jumpIfEqual a => if s.fl.e then some a else none
  | .jumpIfNotEqual a => if s.fl.e then none else some a
  | _ => none

/-- The instructions that emit. -/
def prints : Instr → Bool
  | .printRegister _ => true
  | .multiply _ _ => true
  | _ => false

/-- The instructions that write no register and no memory. -/
def onlyReads : Instr → Bool
  | .halt => true
  | .printRegister _ => true
  | .multiply _ _ => true
  | .compare _ _ => true
  | .jump _ => true
  | .jumpIfEqual _ => true
  | .jumpIfNotEqual _ => true
  | _ => false

/-- The register operands the handler uses, in the order it checks them (60_exceptions.md, Priority): all of them, but
none of an untaken conditional jump. -/
def operandsUsed (i : Instr) (s : State) : List Byte :=
  match i with
  | .halt => []
  | .loadImmediate a _ => [a]
  | .printRegister a => [a]
  | .multiply a b => [a, b]
  | .push a => [a]
  | .pop a => [a]
  | .compare a b => [a, b]
  | .jump a => [a]
  | .jumpIfEqual a => if s.fl.e then [a] else []
  | .jumpIfNotEqual a => if s.fl.e then [] else [a]

/-- The fault the handler of `i` raises in `s`, if it raises one: the first bad register operand, and only then the
stack's limit (60_exceptions.md, Priority, items 5 to 7). -/
def handlerFault (i : Instr) (s : State) : Option (FaultKind × Word9) :=
  match (operandsUsed i s).find? (fun j => decide (8 ≤ j.toNat)) with
  | some j => some (.registerFault, j.setWidth 9)
  | none =>
    match i with
    | .pop _ => if 0xF4 ≤ s.x[7].toNat then some (.underflowFault, s.x[7].setWidth 9) else none
    | .push _ =>
      if (s.x[7] - 1).toNat < s.plim.toNat then some (.stackOverflow, (s.x[7] - 1).setWidth 9) else none
    | _ => none

/-- The operand count of an opcode byte (30_encoding.md, the dispatch table), written out. -/
def operandCount (op : Nat) : Option Nat :=
  if op = 0x01 then some 0
  else if op = 0x82 ∨ op = 0xA2 ∨ op = 0xA7 then some 2
  else if op = 0x47 ∨ op = 0x45 ∨ op = 0x46 ∨ op = 0x54 ∨ op = 0x55 ∨ op = 0x56 then some 1
  else none

/-- The fault of fetch and decode in `s`, if there is one (60_exceptions.md, Priority, items 1 to 4). -/
def fetchFault (s : State) : Option (FaultKind × Word9) :=
  let p := s.pc.toNat
  if 256 ≤ p then some (.addressFault, s.pc)
  else
    match operandCount (s.mem.read p).toNat with
    | none => some (.unknownOpcode, (s.mem.read p).setWidth 9)
    | some n => if 255 < p + n then some (.addressFault, 256) else none

/-- The bytes from `pc` to the end of memory. -/
def bytesAhead (s : State) : List Byte :=
  (List.range (256 - s.pc.toNat)).map fun k => s.mem.read (s.pc.toNat + k)

/-- The byte operand that names register `r`. -/
def regByte (r : Fin 7) : Byte := BitVec.ofNat 8 r.val

/-- Instructions executed one after the other. -/
def execAll : List Instr → State → Host.Outcome State Fault Refusal
  | [], s => .next s
  | i :: is, s =>
    match exec i s with
    | .next t => execAll is t
    | .fault f => .fault f
    | .refused r => .refused r

/-- The text line of a byte: its eight binary digits, the most significant leftmost. -/
def byteLine (b : Byte) : List Char :=
  [7, 6, 5, 4, 3, 2, 1, 0].map fun k => if b.getLsbD k then '1' else '0'

/-- A text holds a binary digit. -/
def hasDigit (text : List Char) : Prop := '0' ∈ text ∨ '1' ∈ text

/-- A text holds binary digits only. -/
def isNumeral (text : List Char) : Prop := ∀ ch ∈ text, ch = '0' ∨ ch = '1'

/-- The value of a base-2 numeral, the leftmost digit most significant: a power of two for each `1`. -/
def numeral : List Char → Nat
  | [] => 0
  | ch :: chs => (if ch = '1' then 2 ^ chs.length else 0) + numeral chs

/-! ### The step function of the spec, over plain numbers -/

/-- `x[i]` as a number. -/
def reg (s : State) (i : Nat) : Nat := (s.x.toList.getD i 0).toNat

/-- `x[i] <- v mod 256`. -/
def setReg (s : State) (i v : Nat) : State := { s with x := s.x.setIfInBounds i (BitVec.ofNat 8 v) }

/-- `Emit(v)`. -/
def emit (s : State) (v : Nat) : State := { s with out := s.out ++ [BitVec.ofNat 16 v] }

/-- The step of 40_fetch_decode_cycle.md section 3, with PUSH and POP from 44_stack.md: one function over natural
numbers, each check and each write where the pseudocode has it. It shares with the model only the state type and the
memory array's read and write. -/
def step (s : State) : State :=
  let p := s.pc.toNat
  let raise (k : FaultKind) (info : Nat) : State := faulted s k (BitVec.ofNat 9 info)
  if s.state ≠ .running then s
  else if 256 ≤ p then raise .addressFault p
  else
    let op := (s.mem.read p).toNat
    match operandCount op with
    | none => raise .unknownOpcode op
    | some n =>
      if 1 ≤ n ∧ 256 ≤ p + 1 then raise .addressFault (p + 1)
      else if n = 2 ∧ 256 ≤ p + 2 then raise .addressFault (p + 2)
      else
        let a := (s.mem.read (p + 1)).toNat
        let b := (s.mem.read (p + 2)).toNat
        let next (t : State) : State := { t with pc := BitVec.ofNat 9 (p + 1 + n) }
        let goto (t : Nat) : State := { s with pc := BitVec.ofNat 9 t }
        if op = 0x01 then { next s with state := .halted }
        else if op = 0x82 then
          if 8 ≤ a then raise .registerFault a else next (setReg s a b)
        else if op = 0x47 then
          if 8 ≤ a then raise .registerFault a else next (emit s (reg s a))
        else if op = 0xA2 then
          if 8 ≤ a then raise .registerFault a
          else if 8 ≤ b then raise .registerFault b
          else next (emit s (reg s a * reg s b))
        else if op = 0x45 then
          if 8 ≤ a then raise .registerFault a
          else
            let nsp := (reg s 7 + 255) % 256
            if nsp < s.plim.toNat then raise .stackOverflow nsp
            else
              let t := setReg s 7 nsp
              next { t with mem := t.mem.write nsp (BitVec.ofNat 8 (reg t a)) }
        else if op = 0x46 then
          if 8 ≤ a then raise .registerFault a
          else if 0xF4 ≤ reg s 7 then raise .underflowFault (reg s 7)
          else
            let t := setReg s a (s.mem.read (reg s 7)).toNat
            next (setReg t 7 (reg t 7 + 1))
        else if op = 0xA7 then
          if 8 ≤ a then raise .registerFault a
          else if 8 ≤ b then raise .registerFault b
          else next { s with fl := ⟨decide (reg s a = reg s b), decide (reg s a < reg s b), decide (reg s a > reg s b)⟩ }
        else if op = 0x54 then
          if 8 ≤ a then raise .registerFault a else goto (reg s a)
        else if op = 0x55 then
          if s.fl.e = true then (if 8 ≤ a then raise .registerFault a else goto (reg s a)) else next s
        else
          if s.fl.e = false then (if 8 ≤ a then raise .registerFault a else goto (reg s a)) else next s

end Sys2Proof.Spec

open Sys2Proof Sys2Proof.Machine

/-! ### Encoding and decoding -/

/-- 30_encoding.md, the dispatch table and its distinct bytes: under ANY ten pairwise distinct opcode bytes, decoding an
instruction's bytes gives it back, with every operand byte at every value, and leaves what follows. -/
def Obligations.DecodeOfEncodeIsIdentity : Prop :=
  ∀ (c : Config) (i : Instr) (rest : List Byte), c.wellFormed → i.wellFormed = true →
    decodeWith c (encodeWith c i ++ rest) = .ok (i, rest)

/-- The other direction: what decodes is exactly the encoding of what it decodes to, then the rest, under any bytes. -/
def Obligations.EncodeOfDecodeIsIdentity : Prop :=
  ∀ (c : Config) (bytes rest : List Byte) (i : Instr), decodeWith c bytes = .ok (i, rest) →
    bytes = encodeWith c i ++ rest

/-- Words written out from 30_encoding.md's table (HALT, LOAD-IMMEDIATE, PRINT-REGISTER as the source's own scenario
prints them; the other bytes are the spec's general knowledge, log entry 1) decode to what they stand for. -/
def Obligations.SpecWordsDecode : Prop :=
  decode [0b00000001] = .ok (.halt, []) ∧
  decode [0b10000010, 0b00000000, 0b00001000, 0b01000111] = .ok (.loadImmediate 0 8, [0x47]) ∧
  decode [0b01000111, 0b00000000, 0b00000001] = .ok (.printRegister 0, [0x01]) ∧
  decode [0b10100010, 0x00, 0x01] = .ok (.multiply 0 1, []) ∧
  decode [0b01000101, 0x07] = .ok (.push 7, []) ∧
  decode [0b01000110, 0x01] = .ok (.pop 1, []) ∧
  decode [0b10100111, 0x01, 0x00] = .ok (.compare 1 0, []) ∧
  decode [0b01010100, 0x02] = .ok (.jump 2, []) ∧
  decode [0b01010101, 0xFF] = .ok (.jumpIfEqual 0xFF, []) ∧
  decode [0b01010110, 0x02] = .ok (.jumpIfNotEqual 2, [])

/-- 60_exceptions.md R132: a byte at `pc` that is none of the ten of the table raises UnknownOpcode with that byte; it
is neither ignored nor a no-operation. -/
def Obligations.UnknownOpcodeFaults : Prop :=
  ∀ s : State, s.state = .running → s.pc.toNat ≤ 255 → Spec.operandCount (s.mem.read s.pc.toNat).toNat = none →
    step s = .next (Spec.faulted s .unknownOpcode ((s.mem.read s.pc.toNat).setWidth 9))

/-- The fetch unit and the decoder agree: fetching at `pc` is decoding the bytes from `pc` to the end of memory, a
missing byte being an AddressFault at 256. -/
def Obligations.FetchIsDecodeOfTheBytesAhead : Prop :=
  ∀ s : State, s.pc.toNat ≤ 256 →
    fetch s = match decode (Spec.bytesAhead s) with
      | .ok (i, _) => .ok i
      | .error (.unknownOpcode op) => .error ⟨.unknownOpcode, op.setWidth 9⟩
      | .error (.missingByte _) => .error ⟨.addressFault, 256⟩

/-- 40_fetch_decode_cycle.md R79: the operand bytes are at `pc+1` and `pc+2` without reduction; an instruction whose
operand would be at 256 raises AddressFault(256) there; a one-byte instruction at 255 reads nothing beyond it. -/
def Obligations.OperandFetchStaysInMemory : Prop :=
  ∀ (s : State) (n : Nat), s.state = .running → s.pc.toNat ≤ 255 →
    Spec.operandCount (s.mem.read s.pc.toNat).toNat = some n →
    (255 < s.pc.toNat + n → step s = .next (Spec.faulted s .addressFault 256)) ∧
    (s.pc.toNat + n ≤ 255 → ∃ i, fetch s = .ok i ∧
      encode i = (List.range (n + 1)).map fun k => s.mem.read (s.pc.toNat + k))

/-- Exactly the instruction's own bytes are read: two memories that agree on them fetch the same instruction
(40_fetch_decode_cycle.md, section 5). -/
def Obligations.FetchReadsOnlyTheInstructionsBytes : Prop :=
  ∀ (s : State) (m : Memory) (i : Instr), fetch s = .ok i →
    (∀ k, k ≤ i.operandCount → m.read (s.pc.toNat + k) = s.mem.read (s.pc.toNat + k)) →
    fetch { s with mem := m } = .ok i

/-! ### The step -/

/-- A step runs the decoded instruction: when the bytes from `pc` decode to a well-formed `i`, the step of a running
machine is `exec i`, with nothing around it. -/
def Obligations.StepRunsTheDecodedInstruction : Prop :=
  ∀ (s : State) (i : Instr) (rest : List Byte), s.state = .running → s.pc.toNat ≤ 255 →
    decode (Spec.bytesAhead s) = .ok (i, rest) → i.wellFormed = true → step s = exec i s

/-- The model's step is the step over plain numbers of `Spec.step`, in every state. In a running state with `pc` at most
256 that is the step function of 40_fetch_decode_cycle.md section 3; it rests on the spec's decisions D1, D3 to D11, D13,
D23 to D25, D27 and D29. Outside it two clauses are the model's own: that a stopped machine's step answers the same state
(log entry 3, DEDUCED from section 2 of that file), and that a fetch at `pc` 257 to 511, which no run reaches, raises
AddressFault of that value (log entry 4, DESIGN CHOICE). -/
def Obligations.StepIsTheSpecStep : Prop :=
  ∀ s : State, step s = .next (Spec.step s)

/-- 60_exceptions.md, Priority: which fault a step takes, exactly, and that it takes none otherwise. The order is the
spec's decisions D9 and D24; that an untaken jump's operand is not checked is its decision D10. The opcodes are those of
30_encoding.md section 3 (D1, log entry 1), the stack's limits those of 44_stack.md and 60_exceptions.md section 1 (D7,
D8, log entries 6 and 7). That a fetch at `pc` 257 to 511 raises AddressFault of that value is the model's DESIGN CHOICE
(log entry 4); the spec's list speaks of 256 alone. -/
def Obligations.FaultPriorityIsExact : Prop :=
  ∀ s : State, s.state = .running →
    match Spec.fetchFault s with
    | some (kind, info) => step s = .next (Spec.faulted s kind info)
    | none => ∃ i, fetch s = .ok i ∧
      match Spec.handlerFault i s with
      | some (kind, info) => step s = .next (Spec.faulted s kind info)
      | none => ∃ t, step s = .next t ∧ t.fault = s.fault ∧ t.state = if i = .halt then .halted else .running

/-- The same of each instruction by itself: it faults exactly as the table of 60_exceptions.md section 2 and the stack's
limits (44_stack.md; D7, D8, log entries 6 and 7) say, and otherwise completes. -/
def Obligations.HandlerFaultsAreExact : Prop :=
  ∀ (i : Instr) (s : State),
    match Spec.handlerFault i s with
    | some (kind, info) => exec i s = .next (Spec.faulted s kind info)
    | none => ∃ t, exec i s = .next t ∧ t.fault = s.fault ∧ t.state = if i = .halt then .halted else s.state

/-- 60_exceptions.md R140: a step that faults leaves every register, the flags, memory, `pc`, `PLIM` and `out` as they
were, and records the kind, the value and the pc; and the entry itself does so for any kind. -/
def Obligations.FaultEntryChangesNothingElse : Prop :=
  (∀ s t : State, s.state = .running → step s = .next t → t.state = .faulted →
    ∃ kind info, t = Spec.faulted s kind info) ∧
  (∀ (s : State) (k : Trap), finish s (.error k) = .next (Spec.faulted s k.kind k.info))

/-- 40_fetch_decode_cycle.md, Execution FSM, and 60_exceptions.md, No return: a stopped machine stays exactly as it is,
step after step; reset is the way out. The state Faulted is the spec's decision D5, reset its decision D20. -/
def Obligations.StoppedMachineStaysStopped : Prop :=
  ∀ s : State, s.state = .halted ∨ s.state = .faulted →
    (∀ n : Nat, Host.Core.run Sys2Proof.core n s = .next s) ∧ s.hostReset = State.reset

/-- 41_halt.md R94: HALT always completes, no other instruction ends a run normally, and nothing but HALT changes
`state` without a fault. -/
def Obligations.OnlyHaltEndsARunNormally : Prop :=
  (∀ s : State, ∃ t, exec .halt s = .next t ∧ t.state = .halted ∧ t.fault = s.fault) ∧
  (∀ (i : Instr) (s t : State), exec i s = .next t → t.state ≠ s.state → i = .halt ∨ t.state = .faulted) ∧
  (∀ s t : State, s.state = .running → step s = .next t → t.state = .halted → fetch s = .ok .halt)

/-- AddressFault is raised by fetch only, and with 256 only, from any pc a run can have (60_exceptions.md R130 is
marked derived in the spec). -/
def Obligations.AddressFaultIsAlways256 : Prop :=
  ∀ (s t : State) (f : FaultRecord), s.state = .running → s.pc.toNat ≤ 256 → step s = .next t → t.fault = some f →
    t.state = .faulted → f.kind = .addressFault → f.info = 256 ∧ ∀ i, fetch s ≠ .ok i

/-- The ALU's and the loader's fault kinds are never taken by a step (43_alu.md section 3, 60_exceptions.md section 2). -/
def Obligations.NoAluOrLoaderFaultInARun : Prop :=
  ∀ (s t : State) (f : FaultRecord), s.state = .running → step s = .next t → t.state = .faulted → t.fault = some f →
    f.kind ≠ .unsupportedOperation ∧ f.kind ≠ .loadFormatFault

/-- Every instruction but a taken jump, an untaken conditional jump among them, moves `pc` past its own bytes, upward
and never past 256, as a number and not modulo anything; a taken jump sets it to its register (40_fetch_decode_cycle.md
sections 3, 4 and 6). The range of `pc` is the spec's decision D3, HALT's advance its decision D4 (log entries 4, 5). -/
def Obligations.NonJumpsMovePcForward : Prop :=
  ∀ (s t : State) (i : Instr), s.state = .running → fetch s = .ok i → step s = .next t → t.state ≠ .faulted →
    match Spec.takenJump i s with
    | none => t.pc.toNat = s.pc.toNat + 1 + i.operandCount ∧ t.pc.toNat ≤ 256
    | some a => ∃ h : a.toNat < 8, t.pc.toNat = s.x[a.toNat].toNat

/-! ### Each instruction -/

/-- HALT (41_halt.md) in every state. That `pc` advances is the spec's decision D4 (log entry 5). -/
def Obligations.HaltStopsAndAdvances : Prop :=
  (∀ s : State, exec .halt s = .next { s with pc := s.pc + 1, state := .halted }) ∧
  (∀ s : State, s.state = .running → s.pc.toNat ≤ 255 → s.mem.read s.pc.toNat = 0x01 →
    ∃ t, step s = .next t ∧ t.state = .halted ∧ t.pc.toNat = s.pc.toNat + 1 ∧ t.x = s.x ∧ t.out = s.out ∧
      t.fl = s.fl ∧ t.mem = s.mem)

/-- LOAD-IMMEDIATE, 42_load_print.md R95 whole: effect, RegisterFault, encoding, operand fetch. -/
def Obligations.LoadImmediateWritesTheLiteral : Prop :=
  ∀ (a b : Byte) (s : State),
    (∀ h : a.toNat < 8, exec (.loadImmediate a b) s = .next { s with x := s.x.set a.toNat b, pc := s.pc + 3 }) ∧
    (8 ≤ a.toNat → exec (.loadImmediate a b) s = .next (Spec.faulted s .registerFault (a.setWidth 9))) ∧
    (∀ rest, decode (0x82 :: a :: b :: rest) = .ok (.loadImmediate a b, rest)) ∧
    (s.state = .running → 254 ≤ s.pc.toNat → s.pc.toNat ≤ 255 → s.mem.read s.pc.toNat = 0x82 →
      step s = .next (Spec.faulted s .addressFault 256))

/-- PRINT-REGISTER, 42_load_print.md R97 whole: effect, RegisterFault, encoding, operand fetch. -/
def Obligations.PrintRegisterEmitsTheRegister : Prop :=
  ∀ (a : Byte) (s : State),
    (∀ h : a.toNat < 8, exec (.printRegister a) s =
      .next { s with out := s.out ++ [s.x[a.toNat].setWidth 16], pc := s.pc + 2 }) ∧
    (8 ≤ a.toNat → exec (.printRegister a) s = .next (Spec.faulted s .registerFault (a.setWidth 9))) ∧
    (∀ rest, decode (0x47 :: a :: rest) = .ok (.printRegister a, rest)) ∧
    (s.state = .running → s.pc.toNat = 255 → s.mem.read 255 = 0x47 →
      step s = .next (Spec.faulted s .addressFault 256))

/-- MULTIPLY (43_alu.md section 2): the full product is emitted and no register is written; the first bad index is
reported. The 16-bit product is the spec's decision D11, the order of the checks its decision D24. -/
def Obligations.MultiplyEmitsTheFullProduct : Prop :=
  ∀ (a b : Byte) (s : State),
    (∀ (ha : a.toNat < 8) (hb : b.toNat < 8), ∃ v : OutWord, v.toNat = s.x[a.toNat].toNat * s.x[b.toNat].toNat ∧
      exec (.multiply a b) s = .next { s with out := s.out ++ [v], pc := s.pc + 3 }) ∧
    (8 ≤ a.toNat → exec (.multiply a b) s = .next (Spec.faulted s .registerFault (a.setWidth 9))) ∧
    (a.toNat < 8 → 8 ≤ b.toNat → exec (.multiply a b) s = .next (Spec.faulted s .registerFault (b.setWidth 9)))

/-- PUSH (44_stack.md section 2), every form: SP is decremented modulo 256; the cell at the new SP takes the register,
or the new SP itself when the register is SP; a bad index and then the limit fault. The limit is the spec's decision
D8, PUSH of register 7 its decision D29, the stack in memory its decision D6. -/
def Obligations.PushStoresBelowTheStackPointer : Prop :=
  ∀ (a : Byte) (s : State),
    (∀ h : a.toNat < 8, s.plim.toNat ≤ (s.x[7] - 1).toNat → exec (.push a) s =
      .next { s with
        x := s.x.set 7 (s.x[7] - 1)
        mem := s.mem.write (s.x[7] - 1).toNat (if a.toNat = 7 then s.x[7] - 1 else s.x[a.toNat])
        pc := s.pc + 2 }) ∧
    (8 ≤ a.toNat → exec (.push a) s = .next (Spec.faulted s .registerFault (a.setWidth 9))) ∧
    (a.toNat < 8 → (s.x[7] - 1).toNat < s.plim.toNat →
      exec (.push a) s = .next (Spec.faulted s .stackOverflow ((s.x[7] - 1).setWidth 9)))

/-- POP (44_stack.md section 3), every form: the register takes the cell at SP, and then SP is incremented from what it
holds after that. The empty-stack fault is the spec's decision D7, POP of register 7 its decision D29. -/
def Obligations.PopLoadsFromTheStackPointer : Prop :=
  ∀ (a : Byte) (s : State),
    (∀ h : a.toNat < 8, s.x[7].toNat < 0xF4 → exec (.pop a) s =
      .next { s with
        x := (s.x.set a.toNat (s.mem.read s.x[7].toNat)).set 7
          ((if a.toNat = 7 then s.mem.read s.x[7].toNat else s.x[7]) + 1)
        pc := s.pc + 2 }) ∧
    (8 ≤ a.toNat → exec (.pop a) s = .next (Spec.faulted s .registerFault (a.setWidth 9))) ∧
    (a.toNat < 8 → 0xF4 ≤ s.x[7].toNat →
      exec (.pop a) s = .next (Spec.faulted s .underflowFault (s.x[7].setWidth 9)))

/-- COMPARE (45_compare.md): the flags are the unsigned relation of the two registers and nothing else changes. The
unsigned reading is the spec's decision D13, the order of the checks its decision D24. -/
def Obligations.CompareSetsTheFlags : Prop :=
  ∀ (a b : Byte) (s : State),
    (∀ (ha : a.toNat < 8) (hb : b.toNat < 8), exec (.compare a b) s =
      .next { s with
        fl := { e := decide (s.x[a.toNat].toNat = s.x[b.toNat].toNat)
                l := decide (s.x[a.toNat].toNat < s.x[b.toNat].toNat)
                g := decide (s.x[a.toNat].toNat > s.x[b.toNat].toNat) }
        pc := s.pc + 3 }) ∧
    (8 ≤ a.toNat → exec (.compare a b) s = .next (Spec.faulted s .registerFault (a.setWidth 9))) ∧
    (a.toNat < 8 → 8 ≤ b.toNat → exec (.compare a b) s = .next (Spec.faulted s .registerFault (b.setWidth 9)))

/-- JUMP (46_control_flow.md section 2): the pc takes the register and nothing else changes. -/
def Obligations.JumpGoesToTheRegister : Prop :=
  ∀ (a : Byte) (s : State),
    (∀ h : a.toNat < 8, exec (.jump a) s = .next { s with pc := s.x[a.toNat].setWidth 9 }) ∧
    (8 ≤ a.toNat → exec (.jump a) s = .next (Spec.faulted s .registerFault (a.setWidth 9)))

/-- JUMP-IF-EQUAL (46_control_flow.md section 3), taken and untaken; untaken with any operand byte, the spec's decision
D10 (log entry 8). -/
def Obligations.JumpIfEqualFollowsTheFlag : Prop :=
  ∀ (a : Byte) (s : State),
    (∀ h : a.toNat < 8, s.fl.e = true → exec (.jumpIfEqual a) s = .next { s with pc := s.x[a.toNat].setWidth 9 }) ∧
    (s.fl.e = false → exec (.jumpIfEqual a) s = .next { s with pc := s.pc + 2 }) ∧
    (8 ≤ a.toNat → s.fl.e = true →
      exec (.jumpIfEqual a) s = .next (Spec.faulted s .registerFault (a.setWidth 9)))

/-- JUMP-IF-NOT-EQUAL (46_control_flow.md section 4), taken and untaken; untaken with any operand byte, the spec's
decision D10 (log entry 8). -/
def Obligations.JumpIfNotEqualFollowsTheFlag : Prop :=
  ∀ (a : Byte) (s : State),
    (∀ h : a.toNat < 8, s.fl.e = false →
      exec (.jumpIfNotEqual a) s = .next { s with pc := s.x[a.toNat].setWidth 9 }) ∧
    (s.fl.e = true → exec (.jumpIfNotEqual a) s = .next { s with pc := s.pc + 2 }) ∧
    (8 ≤ a.toNat → s.fl.e = false →
      exec (.jumpIfNotEqual a) s = .next (Spec.faulted s .registerFault (a.setWidth 9)))

/-! ### Properties the source states -/

/-- 42_load_print.md R96: a literal loaded and printed is emitted exactly. -/
def Obligations.LoadedLiteralIsPrinted : Prop :=
  ∀ (r v : Byte) (s : State), r.toNat < 8 →
    ∃ t u, exec (.loadImmediate r v) s = .next t ∧ exec (.printRegister r) t = .next u ∧
      u.out = s.out ++ [v.setWidth 16]

/-- 45_compare.md R119: after COMPARE exactly one flag is true, and it is the arithmetic relation. -/
def Obligations.CompareIsTrichotomous : Prop :=
  ∀ (a b : Byte) (s : State) (ha : a.toNat < 8) (hb : b.toNat < 8),
    ∃ t, exec (.compare a b) s = .next t ∧ [t.fl.e, t.fl.l, t.fl.g].count true = 1 ∧
      (t.fl.e = true ↔ s.x[a.toNat].toNat = s.x[b.toNat].toNat) ∧
      (t.fl.l = true ↔ s.x[a.toNat].toNat < s.x[b.toNat].toNat) ∧
      (t.fl.g = true ↔ s.x[a.toNat].toNat > s.x[b.toNat].toNat)

/-- 46_control_flow.md R125: JUMP-IF-EQUAL transfers iff Equal is set at the time of the instruction, subject to the
register check; otherwise pc advances by 2. -/
def Obligations.JumpIfEqualTransfersIffEqual : Prop :=
  ∀ (a : Byte) (s : State),
    (s.fl.e = true → ∀ h : a.toNat < 8, ∃ t, exec (.jumpIfEqual a) s = .next t ∧ t.pc.toNat = s.x[a.toNat].toNat) ∧
    (s.fl.e = true → 8 ≤ a.toNat → ∃ t, exec (.jumpIfEqual a) s = .next t ∧ t.state = .faulted ∧ t.pc = s.pc) ∧
    (s.fl.e = false → s.pc.toNat ≤ 254 → ∃ t, exec (.jumpIfEqual a) s = .next t ∧ t.pc.toNat = s.pc.toNat + 2)

/-- On the same flags one and only one of the two conditional jumps goes to the register, and the other goes on
(46_control_flow.md section 4); before any COMPARE that is JUMP-IF-NOT-EQUAL (the reset flags are the spec's decision
D12, log entry 10). -/
def Obligations.ConditionalJumpsAreComplements : Prop :=
  ∀ (a : Byte) (s : State) (h : a.toNat < 8),
    ∃ t u, exec (.jumpIfEqual a) s = .next t ∧ exec (.jumpIfNotEqual a) s = .next u ∧
      ((t.pc = s.x[a.toNat].setWidth 9 ∧ u.pc = s.pc + 2) ∨ (u.pc = s.x[a.toNat].setWidth 9 ∧ t.pc = s.pc + 2)) ∧
      (s.fl = State.reset.fl → u.pc = s.x[a.toNat].setWidth 9)

/-- The stack's round trip (44_stack.md section 4), with the preconditions the spec derives: registers pushed one after
the other and popped in reverse order into distinct registers come back, and SP returns; register 7 named nowhere. -/
def Obligations.PushPopRoundTrip : Prop :=
  ∀ (srcs dsts : List (Fin 7)) (s : State), srcs.length = dsts.length → dsts.Nodup →
    s.x[7].toNat ≤ 0xF4 → s.plim.toNat + srcs.length ≤ s.x[7].toNat →
    ∃ t, Spec.execAll (srcs.map (fun r => Instr.push (Spec.regByte r)) ++
        dsts.reverse.map (fun r => Instr.pop (Spec.regByte r))) s = .next t ∧
      t.x[7] = s.x[7] ∧ t.state = s.state ∧
      ∀ p ∈ srcs.zip dsts, t.x[p.2.val]'(by omega) = s.x[p.1.val]'(by omega)

/-! ### The ALU, the register file, the memory -/

/-- The ALU block (43_alu.md sections 1 and 3): MUL to the output in full, ADD into the first register modulo 256, any
other select UnsupportedOperation; no flag either way. ADD is reached by no instruction (decision D2); the 16-bit
product is decision D11. -/
def Obligations.AluOperations : Prop :=
  ∀ (a b : Byte) (s : State),
    (∀ (ha : a.toNat < 8) (hb : b.toNat < 8),
      (∃ v : OutWord, v.toNat = s.x[a.toNat].toNat * s.x[b.toNat].toNat ∧
        alu .mul a b s = .ok { s with out := s.out ++ [v] }) ∧
      (∃ v : Byte, v.toNat = (s.x[a.toNat].toNat + s.x[b.toNat].toNat) % 256 ∧
        alu .add a b s = .ok { s with x := s.x.set a.toNat v })) ∧
    (∀ sel, sel = .mul ∨ sel = .add →
      (8 ≤ a.toNat → alu sel a b s = .error ⟨.registerFault, a.setWidth 9⟩) ∧
      (a.toNat < 8 → 8 ≤ b.toNat → alu sel a b s = .error ⟨.registerFault, b.setWidth 9⟩)) ∧
    (∀ name, alu (.other name) a b s = .error ⟨.unsupportedOperation, 0⟩)

/-- 10_state.md R19: any register access with an index outside 0 to 7 raises RegisterFault of that index, for a read
and a write; inside, the index is the byte itself, never masked. -/
def Obligations.RegisterAccessIsBoundsChecked : Prop :=
  ∀ (i : Byte) (v : Nat) (s : State),
    (8 ≤ i.toNat → regRead i s = .error ⟨.registerFault, i.setWidth 9⟩ ∧
      regWrite i v s = .error ⟨.registerFault, i.setWidth 9⟩) ∧
    (∀ h : i.toNat < 8, regRead i s = .ok s.x[i.toNat] ∧
      ∃ t, regWrite i v s = .ok t ∧ t = { s with x := s.x.set i.toNat (BitVec.ofNat 8 v) })

/-- 20_memory.md R42: every memory access is bounds-checked on the unreduced address: AddressFault outside 0 to 255,
never a wrap; inside, a write is read back there and every other address reads as before. -/
def Obligations.MemoryAccessIsBoundsChecked : Prop :=
  ∀ (a : Nat) (v : Byte) (s : State),
    (256 ≤ a → memRead a s = .error ⟨.addressFault, BitVec.ofNat 9 a⟩ ∧
      memWrite a v s = .error ⟨.addressFault, BitVec.ofNat 9 a⟩) ∧
    (a < 256 → ∃ t, memWrite a v s = .ok t ∧ memRead a t = .ok v ∧
      ∀ b, b ≠ a → memRead b t = memRead b s)

/-- The memory's form is canonical: two well-formed memories that read the same everywhere are equal. -/
def Obligations.EqualReadsAreEqualMemories : Prop :=
  ∀ m n : Memory, m.wf → n.wf → (∀ a, m.read a = n.read a) → m = n

/-- A pushed byte is what a later fetch at its address decodes (20_memory.md section 5), with no action between. -/
def Obligations.PushedByteIsFetched : Prop :=
  ∀ (a : Byte) (s t u : State) (v : Byte), exec (.push a) s = .next t → t.fault = s.fault → t.state ≠ .faulted →
    v = t.mem.read (s.x[7] - 1).toNat → u = { t with pc := (s.x[7] - 1).setWidth 9 } →
    (∀ h : a.toNat < 8, v = if a.toNat = 7 then s.x[7] - 1 else s.x[a.toNat]) ∧
    (lookupOpcode config v = none → fetch u = .error ⟨.unknownOpcode, v.setWidth 9⟩) ∧
    (∀ i, lookupOpcode config v = some (.noOperand i) → fetch u = .ok i) ∧
    (∀ mk, lookupOpcode config v = some (.oneOperand mk) → u.pc.toNat ≤ 254 →
      fetch u = .ok (mk (s.mem.read (u.pc.toNat + 1)))) ∧
    (∀ mk, lookupOpcode config v = some (.twoOperands mk) → u.pc.toNat ≤ 253 →
      fetch u = .ok (mk (s.mem.read (u.pc.toNat + 1)) (s.mem.read (u.pc.toNat + 2))))

/-! ### Frames -/

/-- HALT, PRINT-REGISTER, MULTIPLY, COMPARE, JUMP, JUMP-IF-EQUAL, JUMP-IF-NOT-EQUAL leave every register, every byte of
memory and `PLIM` as they were; all but COMPARE the flags; all but the two that print the output; all but HALT `state`
and the fault record, the fault entry apart. `pc` may change. -/
def Obligations.FrameOfTheReadingInstructions : Prop :=
  ∀ (i : Instr) (s t : State), Spec.onlyReads i = true → exec i s = .next t →
    t.x = s.x ∧ Spec.keepsMemory s t ∧ t.plim = s.plim ∧
    ((∀ a b, i ≠ .compare a b) → t.fl = s.fl) ∧
    (Spec.prints i = false → t.out = s.out) ∧
    (i ≠ .halt → Spec.keepsControl s t) ∧
    (i = .halt → t.fault = s.fault)

/-- LOAD-IMMEDIATE changes its destination register alone, and `pc`. -/
def Obligations.FrameOfLoadImmediate : Prop :=
  ∀ (a b : Byte) (s t : State), exec (.loadImmediate a b) s = .next t →
    (∀ r, (h : r < 8) → r ≠ a.toNat → t.x[r] = s.x[r]) ∧
    Spec.keepsMemory s t ∧ t.fl = s.fl ∧ t.plim = s.plim ∧ t.out = s.out ∧ Spec.keepsControl s t

/-- PUSH changes register 7 alone, the one byte at `pushAddress s` (the address its meaning stores to), and `pc`. -/
def Obligations.FrameOfPush : Prop :=
  ∀ (a : Byte) (s t : State), exec (.push a) s = .next t →
    (∀ r, (h : r < 8) → r ≠ 7 → t.x[r] = s.x[r]) ∧
    (∀ at_, (pushAddress s).toNat = at_ → ∀ b, b ≠ at_ → t.mem.read b = s.mem.read b) ∧
    t.fl = s.fl ∧ t.plim = s.plim ∧ t.out = s.out ∧ Spec.keepsControl s t

/-- POP changes its destination register and register 7 alone, no byte of memory, and `pc`. -/
def Obligations.FrameOfPop : Prop :=
  ∀ (a : Byte) (s t : State), exec (.pop a) s = .next t →
    (∀ r, (h : r < 8) → r ≠ a.toNat → r ≠ 7 → t.x[r] = s.x[r]) ∧
    Spec.keepsMemory s t ∧ t.fl = s.fl ∧ t.plim = s.plim ∧ t.out = s.out ∧ Spec.keepsControl s t

/-- 10_state.md R26: no instruction but COMPARE writes a flag, a fault leaves the flags, and no ALU operation touches
them. -/
def Obligations.OnlyCompareWritesFlags : Prop :=
  (∀ s t : State, step s = .next t → t.fl ≠ s.fl → ∃ a b, fetch s = .ok (.compare a b) ∧ t.state = .running) ∧
  (∀ (i : Instr) (s t : State), exec i s = .next t → (∀ a b, i ≠ .compare a b) → t.fl = s.fl) ∧
  (∀ (s : State) (k : Trap), (s.takeFault k).fl = s.fl) ∧
  (∀ (sel : AluSelect) (a b : Byte) (s t : State), alu sel a b s = .ok t → t.fl = s.fl)

/-- The memory frame of a step (20_memory.md section 6): a byte changes only when a PUSH is run, and then only the one
at the new SP. -/
def Obligations.OnlyPushWritesMemory : Prop :=
  ∀ (s t : State) (b : Nat), step s = .next t → t.mem.read b ≠ s.mem.read b →
    ∃ a, fetch s = .ok (.push a) ∧ s.state = .running ∧ b = (s.x[7] - 1).toNat

/-- The loaded image is never overwritten (20_memory.md section 3) and `PLIM` is constant during a run; the overflow
check is the spec's decision D8. -/
def Obligations.LoadedImageIsNeverOverwritten : Prop :=
  ∀ (n : Nat) (s t : State), Host.Core.run Sys2Proof.core n s = .next t →
    t.plim = s.plim ∧ ∀ a, a < s.plim.toNat → t.mem.read a = s.mem.read a

/-- 43_alu.md R106: PRINT-REGISTER and MULTIPLY are the only instructions that append to the output, one value per
execution, at its end. -/
def Obligations.OnlyPrintersAppendToTheOutput : Prop :=
  (∀ (i : Instr) (s t : State), exec i s = .next t → t.state ≠ .faulted → Spec.prints i = true →
    ∃ v, t.out = s.out ++ [v]) ∧
  (∀ (i : Instr) (s t : State), exec i s = .next t → Spec.prints i = false → t.out = s.out) ∧
  (∀ s t : State, step s = .next t → t.out = s.out ∨ ∃ v, t.out = s.out ++ [v])

/-! ### What nothing reads -/

/-- 45_compare.md R120: `fl.L` and `fl.G` are read by no instruction and written by every COMPARE; `fl.E` is read by the
two conditional jumps only. Two states that differ in the flags alone run alike, the flags apart. -/
def Obligations.OnlyEqualIsEverRead : Prop :=
  ∀ (s : State) (f g : Flags),
    fetch { s with fl := f } = fetch { s with fl := g } ∧
    ∀ (i : Instr) (t u : State), exec i { s with fl := f } = .next t → exec i { s with fl := g } = .next u →
      ((f.e = g.e ∨ (∀ a, i ≠ .jumpIfEqual a ∧ i ≠ .jumpIfNotEqual a)) → u = { t with fl := u.fl }) ∧
      (∀ a b, i = .compare a b → a.toNat < 8 → b.toNat < 8 → u.fl = t.fl)

/-- The core never reads its output: what was emitted before has no effect on a step (10_state.md section 6). -/
def Obligations.OutputIsNeverRead : Prop :=
  ∀ (s t : State) (before : List OutWord), step s = .next t →
    step { s with out := before ++ s.out } = .next { t with out := before ++ t.out }

/-- `PLIM` is read by PUSH alone (10_state.md section 5). -/
def Obligations.PlimIsReadByPushOnly : Prop :=
  ∀ (s t : State) (n : Word9), (∀ a, fetch s ≠ .ok (.push a)) → step s = .next t →
    step { s with plim := n } = .next { t with plim := n }

/-! ### Invariants, reset and launch -/

/-- The invariant holds at reset. Its clause that memory is canonical is the model's own form (log entry 17, DESIGN
CHOICE); the range of `pc`, the record, `PLIM`, the reset flags and the recorded values are the spec's decisions D3, D5,
D8, D12 and D23. -/
def Obligations.ResetMeetsTheInvariant : Prop := Inv State.reset

/-- Every step keeps the invariant: memory canonical, `pc` and `PLIM` at most 256, the flags one of their four values, a
fault record exactly in Faulted, naming this pc and a possible value. Canonical memory is the model's own form (log entry
17, DESIGN CHOICE); the other clauses rest on the spec's decisions D1, D3, D5, D7, D8, D12 and D23. -/
def Obligations.StepKeepsTheInvariant : Prop :=
  ∀ s t : State, Inv s → step s = .next t → Inv t

/-- Every image of at most 256 bytes launches (decision D21), and the launch state meets the invariant: canonical memory,
the model's own form (log entry 17, DESIGN CHOICE), and the ranges, flags and record of decisions D3, D5, D8 and D12. -/
def Obligations.LaunchMeetsTheInvariant : Prop :=
  ∀ image : List Byte, imageWellFormed image → ∃ s, State.launch image = .ok s ∧ Inv s

/-- 70_reset_and_hazards.md R155: execution begins at address 0, Running, with no vector read from memory, after reset
and after any load. -/
def Obligations.ExecutionBeginsAtZero : Prop :=
  State.reset.pc = 0 ∧ State.reset.state = .running ∧
  ∀ (image : List Byte) (s : State), State.launch image = .ok s → s.pc = 0 ∧ s.state = .running

/-- What reset leaves (10_state.md section 8), from any state. The flags, the fault record, `PLIM` and reset itself are
the spec's decisions D12, D5, D8 and D20. -/
def Obligations.ResetLeaves : Prop :=
  ∀ s : State,
    (∀ r, (h : r < 7) → s.hostReset.x[r] = 0) ∧ s.hostReset.x[7] = 0xF4 ∧ s.hostReset.pc = 0 ∧
    s.hostReset.fl = ⟨false, false, false⟩ ∧ (∀ a, a < 256 → memRead a s.hostReset = .ok 0) ∧
    s.hostReset.state = .running ∧ s.hostReset.fault = none ∧ s.hostReset.plim = 0 ∧ s.hostReset.out = []

/-- The launch state of an image (70_reset_and_hazards.md section 2), premises L1 to L7: reset, with the image at 0 and
zeros after it, and `PLIM` its length (decisions D8, D21). -/
def Obligations.LaunchStateOfAnImage : Prop :=
  ∀ image : List Byte, image.length ≤ 256 →
    ∃ s, State.launch image = .ok s ∧ s.x = State.reset.x ∧ s.pc = 0 ∧ s.fl = ⟨false, false, false⟩ ∧
      s.state = .running ∧ s.fault = none ∧ s.out = [] ∧ s.plim.toNat = image.length ∧
      ∀ a, s.mem.read a = image.getD a 0

/-- An image of more than 256 bytes fails at the write to 256 and there is no launch (decision D21). -/
def Obligations.LongImageIsRefused : Prop :=
  ∀ image : List Byte, 256 < image.length → State.launch image = .error ⟨.addressFault, 256⟩

/-- Loading and launching through the ports, from any state of the system, gives the launch state of the image
(70_reset_and_hazards.md section 3; the ports are the spec's decision D16). -/
def Obligations.PortsRealiseTheLaunch : Prop :=
  ∀ (image : List Byte) (y : System), image.length ≤ 256 →
    ∃ s, State.launch image = .ok s ∧
      System.actAll (.reset :: loadActions 0 image ++ [.launch (BitVec.ofNat 9 image.length)]) y =
        .next { core := s, run := true, loadFailed := false }

/-- What a line of an image's text is (30_encoding.md section 5, 70_reset_and_hazards.md section 2): eight binary digits,
with spaces around and a comment after, are that byte; and for EVERY text between white space, before a comment or not:
no binary digit, nothing; a base-2 numeral of at most 255, that value; a larger numeral, or a binary digit in what is no
numeral, LoadFormatFault. Which characters are white space and what a numeral is are the model's choice (log entry 16);
the fault's recorded 0 is that of log entry 13. -/
def Obligations.ImageLineIsItsByte : Prop :=
  (∀ (b : Byte) (comment : List Char) (m n : Nat),
    parseLine (List.replicate m ' ' ++ Spec.byteLine b ++ List.replicate n ' ') = .ok (some b) ∧
    parseLine (List.replicate m ' ' ++ Spec.byteLine b ++ List.replicate n ' ' ++ '#' :: comment) = .ok (some b) ∧
    parseLine ('#' :: comment) = .ok none) ∧
  (∀ before text after comment line : List Char,
    (∀ ch ∈ before ++ after, isBlank ch = true) → '#' ∉ text →
    (∀ ch, text.head? = some ch ∨ text.getLast? = some ch → isBlank ch = false) →
    line = before ++ text ++ after ∨ line = before ++ text ++ after ++ '#' :: comment →
    (¬ Spec.hasDigit text → parseLine line = .ok none) ∧
    (Spec.hasDigit text → Spec.isNumeral text → Spec.numeral text ≤ 255 →
      parseLine line = .ok (some (BitVec.ofNat 8 (Spec.numeral text)))) ∧
    (Spec.hasDigit text → Spec.isNumeral text → 255 < Spec.numeral text →
      parseLine line = .error ⟨.loadFormatFault, 0⟩) ∧
    (Spec.hasDigit text → ¬ Spec.isNumeral text → parseLine line = .error ⟨.loadFormatFault, 0⟩))

/-- A text with a bad line anywhere is refused with LoadFormatFault and there is no launch; any other text launches as the
image of its bytes in file order (30_encoding.md section 5, 70_reset_and_hazards.md section 2; decision D21, log entry
24). That LoadFormatFault is reported of a text that would also be longer than 256 bytes is the model's choice (log entry
28). -/
def Obligations.TextIsLaunchedOrRefused : Prop :=
  ∀ lines : List (List Char),
    ((∃ line ∈ lines, parseLine line = .error ⟨.loadFormatFault, 0⟩) →
      State.launchText lines = .error ⟨.loadFormatFault, 0⟩) ∧
    (∀ cells : List (Option Byte), lines.map parseLine = cells.map .ok →
      State.launchText lines = State.launch (cells.filterMap id)) ∧
    (∀ line ∈ lines, ∀ k, parseLine line = .error k → k = ⟨.loadFormatFault, 0⟩)
end

