-- ==== Sys2Proof/Laws/Decode.lean ====
section
/-! SUPPORT. What the decoder over a source of bytes answers for each kind of table entry. -/

namespace Sys2Proof

variable {ε : Type} {c : Config} {readAt : Nat → Except ε Byte} {unknown : Byte → ε} {op a b : Byte}

theorem decodeFrom_no_opcode {e : ε} (h : readAt 0 = .error e) : decodeFrom c readAt unknown = .error e := by
  simp [decodeFrom, h]

theorem decodeFrom_unknown (h : readAt 0 = .ok op) (hl : lookupOpcode c op = none) :
    decodeFrom c readAt unknown = .error (unknown op) := by
  simp [decodeFrom, h, hl]

theorem decodeFrom_noOperand {i : Instr} (h : readAt 0 = .ok op) (hl : lookupOpcode c op = some (.noOperand i)) :
    decodeFrom c readAt unknown = .ok i := by
  simp [decodeFrom, h, hl]

theorem decodeFrom_oneOperand {mk : Byte → Instr} (h : readAt 0 = .ok op)
    (hl : lookupOpcode c op = some (.oneOperand mk)) (ha : readAt 1 = .ok a) :
    decodeFrom c readAt unknown = .ok (mk a) := by
  simp [decodeFrom, h, hl, ha]

theorem decodeFrom_twoOperands {mk : Byte → Byte → Instr} (h : readAt 0 = .ok op)
    (hl : lookupOpcode c op = some (.twoOperands mk)) (ha : readAt 1 = .ok a) (hb : readAt 2 = .ok b) :
    decodeFrom c readAt unknown = .ok (mk a b) := by
  simp [decodeFrom, h, hl, ha, hb]

@[simp] theorem byteAt_cons_zero (bs : List Byte) : byteAt (b :: bs) 0 = .ok b := rfl

@[simp] theorem byteAt_cons_succ (bs : List Byte) (k : Nat) (h : k < bs.length) :
    byteAt (b :: bs) (k + 1) = byteAt bs k := by
  simp [byteAt, h]

end Sys2Proof
end

