-- ==== Sys2Proof/Laws/Memory.lean ====
section
/-! SUPPORT. The memory laws: a read after a write, for every memory, canonical or not; and every memory operation
keeps the canonical form. -/

namespace Sys2Proof.Machine

@[simp] theorem Memory.read_nil (a : Nat) : Memory.read [] a = 0 := rfl

theorem Memory.read_cons (c : Host.Cell) (m : Memory) (a : Nat) :
    Memory.read (c :: m) a = if a = c.1 then c.2 else Memory.read m a := by
  obtain ⟨b, v⟩ := c
  by_cases h : a = b
  · simp [Memory.read, List.lookup, h]
  · simp [Memory.read, List.lookup, h, beq_false_of_ne h]

/-- Cells of one address erased: that address reads as unlisted, the others as before. -/
theorem Memory.read_erase (m : Memory) (a b : Nat) :
    Memory.read (m.filter fun c => c.1 != a) b = if b = a then 0 else m.read b := by
  induction m with
  | nil => simp
  | cons c m ih =>
    simp only [List.filter_cons, Memory.read_cons]
    by_cases hc : c.1 = a <;> by_cases hb : b = c.1 <;> simp_all [Memory.read_cons]

/-- Inserting a cell whose address is absent. -/
theorem Memory.read_insertCell (c : Host.Cell) (m : Memory) (h : ∀ d ∈ m, d.1 ≠ c.1) (b : Nat) :
    (Memory.insertCell c m).read b = if b = c.1 then c.2 else m.read b := by
  induction m with
  | nil => simp [Memory.insertCell, Memory.read_cons]
  | cons d m ih =>
    have hd : d.1 ≠ c.1 := h d (by simp)
    have ih := ih fun e he => h e (by simp [he])
    unfold Memory.insertCell
    split
    · simp [Memory.read_cons]
    · simp only [Memory.read_cons, ih]
      by_cases hb : b = d.1
      · simp [hb, hd]
      · simp [hb]

/-- A read after a write: the value written at that address, the old value at every other. -/
theorem Memory.read_write (m : Memory) (a : Nat) (v : Byte) (b : Nat) :
    (m.write a v).read b = if b = a then v else m.read b := by
  unfold Memory.write
  simp only
  split
  · next hv => rw [Memory.read_erase]; simp [hv]
  · rw [Memory.read_insertCell _ _ (by simp), Memory.read_erase]
    by_cases hb : b = a <;> simp [hb]

@[simp] theorem Memory.read_write_same (m : Memory) (a : Nat) (v : Byte) : (m.write a v).read a = v := by
  simp [Memory.read_write]

theorem Memory.read_write_of_ne (m : Memory) {a b : Nat} (v : Byte) (h : b ≠ a) :
    (m.write a v).read b = m.read b := by
  simp [Memory.read_write, h]

theorem Memory.mem_insertCell (c d : Host.Cell) (m : Memory) :
    d ∈ Memory.insertCell c m ↔ d = c ∨ d ∈ m := by
  induction m with
  | nil => simp [Memory.insertCell]
  | cons e m ih =>
    unfold Memory.insertCell
    split
    · simp
    · simp only [List.mem_cons, ih]; tauto

theorem Memory.pairwise_insertCell (c : Host.Cell) (m : Memory) (h : ∀ d ∈ m, d.1 ≠ c.1)
    (hm : m.Pairwise fun d e => d.1 < e.1) : (Memory.insertCell c m).Pairwise fun d e => d.1 < e.1 := by
  induction m with
  | nil => simp [Memory.insertCell]
  | cons d m ih =>
    have hd : d.1 ≠ c.1 := h d (by simp)
    rw [List.pairwise_cons] at hm
    unfold Memory.insertCell
    split
    · next hlt =>
      refine List.pairwise_cons.2 ⟨fun e he => ?_, List.pairwise_cons.2 hm⟩
      rcases List.mem_cons.1 he with rfl | he
      · exact hlt
      · exact hlt.trans (hm.1 e he)
    · next hge =>
      refine List.pairwise_cons.2 ⟨fun e he => ?_, ih (fun e he => h e (by simp [he])) hm.2⟩
      rcases (Memory.mem_insertCell c e m).1 he with rfl | he
      · omega
      · exact hm.1 e he

theorem Memory.wf_nil : Memory.wf [] := ⟨List.Pairwise.nil, fun _ h => nomatch h⟩

/-- A write inside the address space keeps the canonical form. -/
theorem Memory.wf_write (m : Memory) (a : Nat) (v : Byte) (h : m.wf) (ha : a < Config.memSize) :
    (m.write a v).wf := by
  have hf : Memory.wf (m.filter fun c => c.1 != a) :=
    ⟨h.1.filter _, fun c hc => h.2 c (List.mem_filter.1 hc).1⟩
  unfold Memory.write
  simp only
  split
  · exact hf
  · next hv =>
    refine ⟨Memory.pairwise_insertCell _ _ (by simp) hf.1, fun c hc => ?_⟩
    rcases (Memory.mem_insertCell _ _ _).1 hc with rfl | hc
    · exact ⟨ha, hv⟩
    · exact hf.2 c hc

/-- `MemWrite` keeps the canonical form. -/
theorem memWrite_wf {a : Nat} {v : Byte} {s t : State} (h : memWrite a v s = .ok t) (hs : s.mem.wf) : t.mem.wf := by
  unfold memWrite at h
  split at h
  · next ha => cases h; exact Memory.wf_write _ _ _ hs ha
  · cases h

/-- Storing a run of bytes keeps the canonical form. -/
theorem storeBytes_wf (bs : List Byte) : ∀ (m : Memory) (a : Nat), m.wf → (storeBytes m a bs).wf := by
  induction bs with
  | nil => exact fun _ _ h => h
  | cons b bs ih =>
    intro m a h
    refine ih _ _ ?_
    split
    · next ha => exact Memory.wf_write _ _ _ h ha
    · exact h

/-- The loader keeps the canonical form. -/
theorem loadFrom_wf (bs : List Byte) : ∀ {a : Nat} {s t : State}, loadFrom a bs s = .ok t → s.mem.wf → t.mem.wf := by
  induction bs with
  | nil => intro a s t h hs; cases h; exact hs
  | cons b bs ih =>
    intro a s t h hs
    unfold loadFrom at h
    split at h
    · next u hu => exact ih h (memWrite_wf hu hs)
    · cases h

/-- The memory at reset is in the canonical form. -/
theorem reset_mem_wf : State.reset.mem.wf := Memory.wf_nil

end Sys2Proof.Machine
end

