-- ==== Sys2Proof/Laws/State.lean ====
section
/-! SUPPORT. One lemma per field per update of the state, so that no proof unfolds a record update; then what reading a
register gives after each update. -/

namespace Sys2Proof.Machine

/-! ### takeFault -/

@[simp] theorem State.takeFault_x (s : State) (t : Trap) : (s.takeFault t).x = s.x := rfl
@[simp] theorem State.takeFault_pc (s : State) (t : Trap) : (s.takeFault t).pc = s.pc := rfl
@[simp] theorem State.takeFault_fl (s : State) (t : Trap) : (s.takeFault t).fl = s.fl := rfl
@[simp] theorem State.takeFault_mem (s : State) (t : Trap) : (s.takeFault t).mem = s.mem := rfl
@[simp] theorem State.takeFault_state (s : State) (t : Trap) : (s.takeFault t).state = .faulted := rfl
@[simp] theorem State.takeFault_fault (s : State) (t : Trap) : (s.takeFault t).fault = some { kind := t.kind, info := t.info, fpc := s.pc } := rfl
@[simp] theorem State.takeFault_plim (s : State) (t : Trap) : (s.takeFault t).plim = s.plim := rfl
@[simp] theorem State.takeFault_out (s : State) (t : Trap) : (s.takeFault t).out = s.out := rfl

/-! ### setReg -/

@[simp] theorem State.setReg_x (s : State) (i : Fin Config.numRegs) (v : Byte) : (s.setReg i v).x = s.x.set i.val v := rfl
@[simp] theorem State.setReg_pc (s : State) (i : Fin Config.numRegs) (v : Byte) : (s.setReg i v).pc = s.pc := rfl
@[simp] theorem State.setReg_fl (s : State) (i : Fin Config.numRegs) (v : Byte) : (s.setReg i v).fl = s.fl := rfl
@[simp] theorem State.setReg_mem (s : State) (i : Fin Config.numRegs) (v : Byte) : (s.setReg i v).mem = s.mem := rfl
@[simp] theorem State.setReg_state (s : State) (i : Fin Config.numRegs) (v : Byte) : (s.setReg i v).state = s.state := rfl
@[simp] theorem State.setReg_fault (s : State) (i : Fin Config.numRegs) (v : Byte) : (s.setReg i v).fault = s.fault := rfl
@[simp] theorem State.setReg_plim (s : State) (i : Fin Config.numRegs) (v : Byte) : (s.setReg i v).plim = s.plim := rfl
@[simp] theorem State.setReg_out (s : State) (i : Fin Config.numRegs) (v : Byte) : (s.setReg i v).out = s.out := rfl

/-! ### setSp -/

@[simp] theorem State.setSp_x (s : State) (v : Byte) : (s.setSp v).x = s.x.set 7 v := rfl
@[simp] theorem State.setSp_pc (s : State) (v : Byte) : (s.setSp v).pc = s.pc := rfl
@[simp] theorem State.setSp_fl (s : State) (v : Byte) : (s.setSp v).fl = s.fl := rfl
@[simp] theorem State.setSp_mem (s : State) (v : Byte) : (s.setSp v).mem = s.mem := rfl
@[simp] theorem State.setSp_state (s : State) (v : Byte) : (s.setSp v).state = s.state := rfl
@[simp] theorem State.setSp_fault (s : State) (v : Byte) : (s.setSp v).fault = s.fault := rfl
@[simp] theorem State.setSp_plim (s : State) (v : Byte) : (s.setSp v).plim = s.plim := rfl
@[simp] theorem State.setSp_out (s : State) (v : Byte) : (s.setSp v).out = s.out := rfl

/-! ### setFlags -/

@[simp] theorem State.setFlags_x (s : State) (f : Flags) : (s.setFlags f).x = s.x := rfl
@[simp] theorem State.setFlags_pc (s : State) (f : Flags) : (s.setFlags f).pc = s.pc := rfl
@[simp] theorem State.setFlags_fl (s : State) (f : Flags) : (s.setFlags f).fl = f := rfl
@[simp] theorem State.setFlags_mem (s : State) (f : Flags) : (s.setFlags f).mem = s.mem := rfl
@[simp] theorem State.setFlags_state (s : State) (f : Flags) : (s.setFlags f).state = s.state := rfl
@[simp] theorem State.setFlags_fault (s : State) (f : Flags) : (s.setFlags f).fault = s.fault := rfl
@[simp] theorem State.setFlags_plim (s : State) (f : Flags) : (s.setFlags f).plim = s.plim := rfl
@[simp] theorem State.setFlags_out (s : State) (f : Flags) : (s.setFlags f).out = s.out := rfl

/-! ### emit -/

@[simp] theorem State.emit_x (s : State) (v : OutWord) : (s.emit v).x = s.x := rfl
@[simp] theorem State.emit_pc (s : State) (v : OutWord) : (s.emit v).pc = s.pc := rfl
@[simp] theorem State.emit_fl (s : State) (v : OutWord) : (s.emit v).fl = s.fl := rfl
@[simp] theorem State.emit_mem (s : State) (v : OutWord) : (s.emit v).mem = s.mem := rfl
@[simp] theorem State.emit_state (s : State) (v : OutWord) : (s.emit v).state = s.state := rfl
@[simp] theorem State.emit_fault (s : State) (v : OutWord) : (s.emit v).fault = s.fault := rfl
@[simp] theorem State.emit_plim (s : State) (v : OutWord) : (s.emit v).plim = s.plim := rfl
@[simp] theorem State.emit_out (s : State) (v : OutWord) : (s.emit v).out = s.out ++ [v] := rfl

/-! ### advance -/

@[simp] theorem State.advance_x (s : State) (n : Nat) : (s.advance n).x = s.x := rfl
@[simp] theorem State.advance_pc (s : State) (n : Nat) : (s.advance n).pc = s.pc + BitVec.ofNat 9 (1 + n) := rfl
@[simp] theorem State.advance_fl (s : State) (n : Nat) : (s.advance n).fl = s.fl := rfl
@[simp] theorem State.advance_mem (s : State) (n : Nat) : (s.advance n).mem = s.mem := rfl
@[simp] theorem State.advance_state (s : State) (n : Nat) : (s.advance n).state = s.state := rfl
@[simp] theorem State.advance_fault (s : State) (n : Nat) : (s.advance n).fault = s.fault := rfl
@[simp] theorem State.advance_plim (s : State) (n : Nat) : (s.advance n).plim = s.plim := rfl
@[simp] theorem State.advance_out (s : State) (n : Nat) : (s.advance n).out = s.out := rfl

/-! ### jumpTo -/

@[simp] theorem State.jumpTo_x (s : State) (t : Word9) : (s.jumpTo t).x = s.x := rfl
@[simp] theorem State.jumpTo_pc (s : State) (t : Word9) : (s.jumpTo t).pc = t := rfl
@[simp] theorem State.jumpTo_fl (s : State) (t : Word9) : (s.jumpTo t).fl = s.fl := rfl
@[simp] theorem State.jumpTo_mem (s : State) (t : Word9) : (s.jumpTo t).mem = s.mem := rfl
@[simp] theorem State.jumpTo_state (s : State) (t : Word9) : (s.jumpTo t).state = s.state := rfl
@[simp] theorem State.jumpTo_fault (s : State) (t : Word9) : (s.jumpTo t).fault = s.fault := rfl
@[simp] theorem State.jumpTo_plim (s : State) (t : Word9) : (s.jumpTo t).plim = s.plim := rfl
@[simp] theorem State.jumpTo_out (s : State) (t : Word9) : (s.jumpTo t).out = s.out := rfl

/-! ### setPlim -/

@[simp] theorem State.setPlim_x (s : State) (n : Nat) : (s.setPlim n).x = s.x := rfl
@[simp] theorem State.setPlim_pc (s : State) (n : Nat) : (s.setPlim n).pc = s.pc := rfl
@[simp] theorem State.setPlim_fl (s : State) (n : Nat) : (s.setPlim n).fl = s.fl := rfl
@[simp] theorem State.setPlim_mem (s : State) (n : Nat) : (s.setPlim n).mem = s.mem := rfl
@[simp] theorem State.setPlim_state (s : State) (n : Nat) : (s.setPlim n).state = s.state := rfl
@[simp] theorem State.setPlim_fault (s : State) (n : Nat) : (s.setPlim n).fault = s.fault := rfl
@[simp] theorem State.setPlim_plim (s : State) (n : Nat) : (s.setPlim n).plim = BitVec.ofNat 9 n := rfl
@[simp] theorem State.setPlim_out (s : State) (n : Nat) : (s.setPlim n).out = s.out := rfl

/-! ### setMem -/

@[simp] theorem State.setMem_x (s : State) (m : Memory) : (s.setMem m).x = s.x := rfl
@[simp] theorem State.setMem_pc (s : State) (m : Memory) : (s.setMem m).pc = s.pc := rfl
@[simp] theorem State.setMem_fl (s : State) (m : Memory) : (s.setMem m).fl = s.fl := rfl
@[simp] theorem State.setMem_mem (s : State) (m : Memory) : (s.setMem m).mem = m := rfl
@[simp] theorem State.setMem_state (s : State) (m : Memory) : (s.setMem m).state = s.state := rfl
@[simp] theorem State.setMem_fault (s : State) (m : Memory) : (s.setMem m).fault = s.fault := rfl
@[simp] theorem State.setMem_plim (s : State) (m : Memory) : (s.setMem m).plim = s.plim := rfl
@[simp] theorem State.setMem_out (s : State) (m : Memory) : (s.setMem m).out = s.out := rfl

/-! ### halt -/

@[simp] theorem State.halt_x (s : State) : (s.halt).x = s.x := rfl
@[simp] theorem State.halt_pc (s : State) : (s.halt).pc = s.pc := rfl
@[simp] theorem State.halt_fl (s : State) : (s.halt).fl = s.fl := rfl
@[simp] theorem State.halt_mem (s : State) : (s.halt).mem = s.mem := rfl
@[simp] theorem State.halt_state (s : State) : (s.halt).state = .halted := rfl
@[simp] theorem State.halt_fault (s : State) : (s.halt).fault = s.fault := rfl
@[simp] theorem State.halt_plim (s : State) : (s.halt).plim = s.plim := rfl
@[simp] theorem State.halt_out (s : State) : (s.halt).out = s.out := rfl

/-! ### Reading a register after an update -/

@[simp] theorem State.getReg_setMem (s : State) (m : Memory) (r : Fin Config.numRegs) : (s.setMem m).getReg r = s.getReg r := rfl
@[simp] theorem State.sp_setMem (s : State) (m : Memory) : (s.setMem m).sp = s.sp := rfl
@[simp] theorem State.getReg_halt (s : State) (r : Fin Config.numRegs) : (s.halt).getReg r = s.getReg r := rfl
@[simp] theorem State.sp_halt (s : State) : (s.halt).sp = s.sp := rfl
@[simp] theorem State.getReg_takeFault (s : State) (t : Trap) (r : Fin Config.numRegs) : (s.takeFault t).getReg r = s.getReg r := rfl
@[simp] theorem State.sp_takeFault (s : State) (t : Trap) : (s.takeFault t).sp = s.sp := rfl
@[simp] theorem State.getReg_setFlags (s : State) (f : Flags) (r : Fin Config.numRegs) : (s.setFlags f).getReg r = s.getReg r := rfl
@[simp] theorem State.sp_setFlags (s : State) (f : Flags) : (s.setFlags f).sp = s.sp := rfl
@[simp] theorem State.getReg_emit (s : State) (v : OutWord) (r : Fin Config.numRegs) : (s.emit v).getReg r = s.getReg r := rfl
@[simp] theorem State.sp_emit (s : State) (v : OutWord) : (s.emit v).sp = s.sp := rfl
@[simp] theorem State.getReg_advance (s : State) (n : Nat) (r : Fin Config.numRegs) : (s.advance n).getReg r = s.getReg r := rfl
@[simp] theorem State.sp_advance (s : State) (n : Nat) : (s.advance n).sp = s.sp := rfl
@[simp] theorem State.getReg_jumpTo (s : State) (t : Word9) (r : Fin Config.numRegs) : (s.jumpTo t).getReg r = s.getReg r := rfl
@[simp] theorem State.sp_jumpTo (s : State) (t : Word9) : (s.jumpTo t).sp = s.sp := rfl
@[simp] theorem State.getReg_setPlim (s : State) (n : Nat) (r : Fin Config.numRegs) : (s.setPlim n).getReg r = s.getReg r := rfl
@[simp] theorem State.sp_setPlim (s : State) (n : Nat) : (s.setPlim n).sp = s.sp := rfl

/-- A register reads as what was last written to it, and a write leaves the others alone. -/
theorem State.getReg_setReg (s : State) (i j : Fin Config.numRegs) (v : Byte) :
    (s.setReg i v).getReg j = if i = j then v else s.getReg j := by
  simp [State.getReg, State.setReg, Vector.getElem_set, Fin.ext_iff]

@[simp] theorem State.getReg_setReg_same (s : State) (i : Fin Config.numRegs) (v : Byte) :
    (s.setReg i v).getReg i = v := by
  simp [State.getReg_setReg]

theorem State.getReg_setReg_of_ne (s : State) {i j : Fin Config.numRegs} (v : Byte) (h : i ≠ j) :
    (s.setReg i v).getReg j = s.getReg j := by
  simp [State.getReg_setReg, h]

/-- SP is register 7 and nothing else. -/
theorem State.setSp_eq (s : State) (v : Byte) : s.setSp v = s.setReg spIndex v := rfl

theorem State.sp_eq (s : State) : s.sp = s.getReg spIndex := rfl

@[simp] theorem State.sp_setSp (s : State) (v : Byte) : (s.setSp v).sp = v := by
  simp [State.setSp_eq, State.sp_eq]

end Sys2Proof.Machine
end

