-- ==== Sys2Proof/Laws/Ops.lean ====
section
/-! SUPPORT. For each shared operation, once, everything it can answer. Proofs cite these and do not unfold the
operations again. -/

namespace Sys2Proof.Machine

/-! ### The checks -/

theorem regIndex_of_lt {i : Byte} (h : i.toNat < 8) : regIndex i = .ok ⟨i.toNat, h⟩ := by
  simp [regIndex, h]

theorem regIndex_of_ge {i : Byte} (h : 8 ≤ i.toNat) : regIndex i = .error (Trap.register i) := by
  simp [regIndex, Nat.not_lt.2 h]

/-- The bounds check of the register file answers the index itself, or RegisterFault of the whole byte. -/
theorem regIndex_cases (i : Byte) :
    (∃ h : i.toNat < 8, regIndex i = .ok ⟨i.toNat, h⟩) ∨ (8 ≤ i.toNat ∧ regIndex i = .error (Trap.register i)) := by
  by_cases h : i.toNat < 8
  · exact .inl ⟨h, regIndex_of_lt h⟩
  · exact .inr ⟨Nat.not_lt.1 h, regIndex_of_ge (Nat.not_lt.1 h)⟩

theorem regRead_of_lt {i : Byte} (s : State) (h : i.toNat < 8) : regRead i s = .ok (s.getReg ⟨i.toNat, h⟩) := by
  simp [regRead, regIndex_of_lt h]

theorem regRead_of_ge {i : Byte} (s : State) (h : 8 ≤ i.toNat) : regRead i s = .error (Trap.register i) := by
  simp [regRead, regIndex_of_ge h]

theorem regWrite_of_lt {i : Byte} (v : Nat) (s : State) (h : i.toNat < 8) :
    regWrite i v s = .ok (s.setReg ⟨i.toNat, h⟩ (BitVec.ofNat 8 v)) := by
  simp [regWrite, regIndex_of_lt h]

theorem regWrite_of_ge {i : Byte} (v : Nat) (s : State) (h : 8 ≤ i.toNat) :
    regWrite i v s = .error (Trap.register i) := by
  simp [regWrite, regIndex_of_ge h]

theorem memRead_of_lt {a : Nat} (s : State) (h : a < 256) : memRead a s = .ok (s.mem.read a) := by
  simp [memRead, h]

theorem memRead_of_ge {a : Nat} (s : State) (h : 256 ≤ a) : memRead a s = .error (Trap.address a) := by
  simp [memRead, Nat.not_lt.2 h]

theorem memWrite_of_lt {a : Nat} (v : Byte) (s : State) (h : a < 256) :
    memWrite a v s = .ok (s.setMem (s.mem.write a v)) := by
  simp [memWrite, h]

theorem memWrite_of_ge {a : Nat} (v : Byte) (s : State) (h : 256 ≤ a) : memWrite a v s = .error (Trap.address a) := by
  simp [memWrite, Nat.not_lt.2 h]

/-! ### Committing or faulting -/

@[simp] theorem finish_ok (s t : State) : finish s (.ok t) = .next t := rfl

@[simp] theorem finish_error (s : State) (t : Trap) : finish s (.error t) = .next (s.takeFault t) := rfl

/-- Every instruction ends in a next state. -/
theorem finish_next (s : State) (r : Except Trap State) : ∃ t, finish s r = .next t := by
  cases r <;> exact ⟨_, rfl⟩

/-- The next state is the committed one, or the state the instruction began in with the fault taken. -/
theorem finish_cases {s t : State} {r : Except Trap State} (h : finish s r = .next t) :
    r = .ok t ∨ ∃ k, r = .error k ∧ t = s.takeFault k := by
  cases r with
  | ok u => cases h; exact .inl rfl
  | error k => cases h; exact .inr ⟨k, rfl, rfl⟩

/-! ### The operand forms -/

/-- Two register operands: both values, or RegisterFault of the first bad index. -/
theorem registerPair_cases (a b : Byte) (s : State) :
    (∃ (ha : a.toNat < 8) (hb : b.toNat < 8), registerPair a b s = .ok (s.getReg ⟨a.toNat, ha⟩, s.getReg ⟨b.toNat, hb⟩)) ∨
    (8 ≤ a.toNat ∧ registerPair a b s = .error (Trap.register a)) ∨
    (a.toNat < 8 ∧ 8 ≤ b.toNat ∧ registerPair a b s = .error (Trap.register b)) := by
  unfold registerPair
  rcases regIndex_cases a with ⟨ha, -⟩ | ⟨ha, -⟩
  · rcases regIndex_cases b with ⟨hb, -⟩ | ⟨hb, -⟩
    · exact .inl ⟨ha, hb, by simp [regRead_of_lt, ha, hb]⟩
    · exact .inr (.inr ⟨ha, hb, by simp [regRead_of_lt, regRead_of_ge, ha, hb]⟩)
  · exact .inr (.inl ⟨ha, by simp [regRead_of_ge, ha]⟩)

/-- A taken transfer: the zero-extended register, or RegisterFault. -/
theorem takeJump_cases (a : Byte) (s : State) :
    (∃ h : a.toNat < 8, takeJump a s = .ok (s.jumpTo ((s.getReg ⟨a.toNat, h⟩).setWidth 9))) ∨
    (8 ≤ a.toNat ∧ takeJump a s = .error (Trap.register a)) := by
  unfold takeJump jumpTarget
  rcases regIndex_cases a with ⟨h, -⟩ | ⟨h, -⟩
  · exact .inl ⟨h, by simp [regRead_of_lt, h]⟩
  · exact .inr ⟨h, by simp [regRead_of_ge, h]⟩

/-! ### The ALU and the stack unit -/

/-- The ALU driven with MUL: one value emitted and nothing else, or RegisterFault. -/
theorem alu_mul_cases (a b : Byte) (s : State) :
    (∃ (ha : a.toNat < 8) (hb : b.toNat < 8),
      alu .mul a b s = .ok (s.emit (product (s.getReg ⟨a.toNat, ha⟩) (s.getReg ⟨b.toNat, hb⟩)))) ∨
    (8 ≤ a.toNat ∧ alu .mul a b s = .error (Trap.register a)) ∨
    (a.toNat < 8 ∧ 8 ≤ b.toNat ∧ alu .mul a b s = .error (Trap.register b)) := by
  rcases registerPair_cases a b s with ⟨ha, hb, h⟩ | ⟨ha, h⟩ | ⟨ha, hb, h⟩
  · exact .inl ⟨ha, hb, by simp [alu, h]⟩
  · exact .inr (.inl ⟨ha, by simp [alu, h]⟩)
  · exact .inr (.inr ⟨ha, hb, by simp [alu, h]⟩)

/-- The product does not wrap: it is the product of the two numbers. -/
theorem product_toNat (va vb : Byte) : (product va vb).toNat = va.toNat * vb.toNat := by
  have ha := va.isLt
  have hb := vb.isLt
  have h : va.toNat * vb.toNat < 65536 := Nat.lt_of_le_of_lt (Nat.mul_le_mul (Nat.le_of_lt_succ ha) (Nat.le_of_lt_succ hb)) (by norm_num)
  simp only [product, BitVec.toNat_mul, BitVec.toNat_setWidth]
  rw [Nat.mod_eq_of_lt (by omega : va.toNat < 2 ^ 16), Nat.mod_eq_of_lt (by omega : vb.toNat < 2 ^ 16)]
  exact Nat.mod_eq_of_lt h

/-- PUSH's unit: the index fault, the limit fault, or SP moved and one cell written there. -/
theorem push_cases (c : Config) (a : Byte) (s : State) :
    (8 ≤ a.toNat ∧ push c a s = .error (Trap.register a)) ∨
    (a.toNat < 8 ∧ c.checkOverflow = true ∧ (pushAddress s).toNat < s.plim.toNat ∧
      push c a s = .error (Trap.overflow (pushAddress s))) ∨
    (∃ h : a.toNat < 8, (c.checkOverflow = true → s.plim.toNat ≤ (pushAddress s).toNat) ∧
      push c a s = .ok ((s.setSp (pushAddress s)).setMem
        (s.mem.write (pushAddress s).toNat ((s.setSp (pushAddress s)).getReg ⟨a.toNat, h⟩)))) := by
  rcases regIndex_cases a with ⟨h, hi⟩ | ⟨h, hi⟩
  · by_cases ho : c.checkOverflow = true ∧ (pushAddress s).toNat < s.plim.toNat
    · exact .inr (.inl ⟨h, ho.1, ho.2, by simp [push, hi, ho]⟩)
    · refine .inr (.inr ⟨h, fun hc => Nat.not_lt.1 fun hl => ho ⟨hc, hl⟩, ?_⟩)
      simp only [push, hi, if_neg ho]
      rw [memWrite_of_lt _ _ (pushAddress s).isLt]
      rfl
  · exact .inl ⟨h, by simp [push, hi]⟩

/-- POP's unit: the index fault, the limit fault, or the register and then SP written. -/
theorem pop_cases (c : Config) (a : Byte) (s : State) :
    (8 ≤ a.toNat ∧ pop c a s = .error (Trap.register a)) ∨
    (a.toNat < 8 ∧ c.checkUnderflow = true ∧ Config.spInit.toNat ≤ s.sp.toNat ∧
      pop c a s = .error (Trap.underflow s.sp)) ∨
    (∃ h : a.toNat < 8, (c.checkUnderflow = true → s.sp.toNat < Config.spInit.toNat) ∧
      pop c a s = .ok ((s.setReg ⟨a.toNat, h⟩ (s.mem.read s.sp.toNat)).setSp
        ((s.setReg ⟨a.toNat, h⟩ (s.mem.read s.sp.toNat)).sp + 1))) := by
  rcases regIndex_cases a with ⟨h, hi⟩ | ⟨h, hi⟩
  · by_cases hu : c.checkUnderflow = true ∧ Config.spInit.toNat ≤ s.sp.toNat
    · exact .inr (.inl ⟨h, hu.1, hu.2, by simp only [pop, hi, if_pos hu]⟩)
    · refine .inr (.inr ⟨h, fun hc => Nat.not_le.1 fun hl => hu ⟨hc, hl⟩, ?_⟩)
      simp only [pop, hi, if_neg hu, popAddress]
      rw [memRead_of_lt _ s.sp.isLt]
      rfl
  · exact .inl ⟨h, by simp [pop, hi]⟩

end Sys2Proof.Machine
end

