-- ==== Sys2Proof/Laws/PerInstr.lean ====
section
/-! SUPPORT. Statements made per instruction: one family, one lemma per constructor. -/

namespace Sys2Proof.Laws.Encoding

/-- An instruction is well formed and its encoding, under any opcode bytes, is as long as its operand count says: the
opcode byte and the operand bytes (30_encoding.md rules R58, R63). -/
def Statement (i : Instr) : Prop :=
  i.wellFormed = true ∧ ∀ c : Config, (encodeWith c i).length = i.length

theorem halt : Statement .halt := ⟨rfl, fun _ => rfl⟩
theorem loadImmediate (a b : Byte) : Statement (.loadImmediate a b) := ⟨rfl, fun _ => rfl⟩
theorem printRegister (a : Byte) : Statement (.printRegister a) := ⟨rfl, fun _ => rfl⟩
theorem multiply (a b : Byte) : Statement (.multiply a b) := ⟨rfl, fun _ => rfl⟩
theorem push (a : Byte) : Statement (.push a) := ⟨rfl, fun _ => rfl⟩
theorem pop (a : Byte) : Statement (.pop a) := ⟨rfl, fun _ => rfl⟩
theorem compare (a b : Byte) : Statement (.compare a b) := ⟨rfl, fun _ => rfl⟩
theorem jump (a : Byte) : Statement (.jump a) := ⟨rfl, fun _ => rfl⟩
theorem jumpIfEqual (a : Byte) : Statement (.jumpIfEqual a) := ⟨rfl, fun _ => rfl⟩
theorem jumpIfNotEqual (a : Byte) : Statement (.jumpIfNotEqual a) := ⟨rfl, fun _ => rfl⟩

end Sys2Proof.Laws.Encoding
end

