-- ==== Sys2Proof/Laws/Step.lean ====
section
/-! SUPPORT. What one step can do, once: which of the three arms of `step` answered. -/

namespace Sys2Proof.Machine

theorem step_of_stopped {s : State} (h : s.state ≠ .running) : step s = .next s := by
  simp [step, State.isRunning, h]

theorem step_of_fetched {s : State} {i : Instr} (h : s.state = .running) (hf : fetch s = .ok i) :
    step s = exec i s := by
  simp [step, State.isRunning, h, hf]

theorem step_of_fetch_fault {s : State} {k : Trap} (h : s.state = .running) (hf : fetch s = .error k) :
    step s = .next (s.takeFault k) := by
  simp [step, State.isRunning, h, hf]

/-- If a step answers a next state, the machine was stopped and stays as it was, or the fetch raised a fault that is
taken, or the fetched instruction gave that state. -/
theorem step_cases {s t : State} (h : step s = .next t) :
    (s.state ≠ .running ∧ t = s) ∨
    (s.state = .running ∧ ∃ k, fetch s = .error k ∧ t = s.takeFault k) ∨
    (s.state = .running ∧ ∃ i, fetch s = .ok i ∧ exec i s = .next t) := by
  by_cases hr : s.state = .running
  · cases hf : fetch s with
    | error k => rw [step_of_fetch_fault hr hf] at h; cases h; exact .inr (.inl ⟨hr, k, rfl, rfl⟩)
    | ok i => rw [step_of_fetched hr hf] at h; exact .inr (.inr ⟨hr, i, rfl, h⟩)
  · rw [step_of_stopped hr] at h; cases h; exact .inl ⟨hr, rfl⟩

end Sys2Proof.Machine
end

