-- ==== Sys2Proof/Tests/Slice0.lean ====
section
/-! SUPPORT. Small tests: the static checks, the decoding of words written out from the spec, one step per instruction
with the result the spec's own vectors give (95_test_vectors.md), and for each statement a state that meets its
hypotheses. -/

namespace Sys2Proof.Tests

open Sys2Proof Sys2Proof.Machine

/-- The reset state with `pc = p` and bytes stored there. -/
def code (p : Word9) (bytes : List Byte) : State :=
  { State.reset with pc := p, mem := storeBytes [] p.toNat bytes }

/-- The next state, if there is one. -/
def after (r : Result) : Option State :=
  match r with
  | .next t => some t
  | .fault _ => none
  | .refused _ => none

/-! ### The static checks, each with a term it refuses -/

theorem test_config_well_formed : config.wellFormed := by decide
theorem test_config_with_two_equal_opcodes_refused : ¬ ({ config with opcPop := 0x45 } : Config).wellFormed := by decide
theorem test_image_of_256_bytes_accepted : imageWellFormed (List.replicate 256 1) := by
  rw [imageWellFormed, List.length_replicate]
theorem test_image_of_257_bytes_refused : ¬ imageWellFormed (List.replicate 257 1) := by
  rw [imageWellFormed, List.length_replicate]; decide
theorem test_instruction_with_any_operand_well_formed : (Instr.jump 0xFF).wellFormed = true := by decide
theorem test_memory_out_of_order_refused : ¬ Memory.wf [(5, 1), (3, 2)] := by decide
theorem test_memory_with_a_zero_cell_refused : ¬ Memory.wf [(5, 0)] := by decide
theorem test_memory_past_the_end_refused : ¬ Memory.wf [(256, 1)] := by decide

/-! ### Decoding: words from 30_encoding.md R59 and R64, operand bits all different from their neighbours' -/

theorem test_decode_halt : decode [0b00000001, 0xFF] = .ok (.halt, [0xFF]) := by decide
theorem test_decode_loadImmediate :
    decode [0b10000010, 0b00000101, 0b11001000] = .ok (.loadImmediate 5 200, []) := by decide
theorem test_decode_printRegister : decode [0b01000111, 0b10000001] = .ok (.printRegister 129, []) := by decide
theorem test_decode_multiply : decode [0b10100010, 0b00000011, 0b00000100] = .ok (.multiply 3 4, []) := by decide
theorem test_decode_push : decode [0b01000101, 0b00000111] = .ok (.push 7, []) := by decide
theorem test_decode_pop : decode [0b01000110, 0b00000110] = .ok (.pop 6, []) := by decide
theorem test_decode_compare : decode [0b10100111, 0b00000001, 0b00000010] = .ok (.compare 1 2, []) := by decide
theorem test_decode_jump : decode [0b01010100, 0b00000010] = .ok (.jump 2, []) := by decide
theorem test_decode_jumpIfEqual : decode [0b01010101, 0b00001001] = .ok (.jumpIfEqual 9, []) := by decide
theorem test_decode_jumpIfNotEqual : decode [0b01010110, 0b00001010] = .ok (.jumpIfNotEqual 10, []) := by decide
/-- Vectors F8 and F9: ADD's byte and the neighbours of the opcodes are unknown. -/
theorem test_decode_unknown :
    [0xA0, 0x00, 0x02, 0x03, 0x44, 0x48, 0x53, 0x57, 0x81, 0x83, 0xA1, 0xA3, 0xA6, 0xA8].all
      (fun op => (lookupOpcode config op).isNone) = true := by decide
theorem test_decode_missing_operand : decode [0x82, 0x00] = .error (.missingByte 2) := by decide
theorem test_table_word : decodeTableWord 24 0x64C882 = some (.loadImmediate 0xC8 0x64) := by decide
theorem test_table_word_short : decodeTableWord 8 0xFFFFA2 = some (.multiply 0 0) := by decide
theorem test_table_word_runs_first :
    (after (step (State.reset.withFetchWord 8 0x82))).map (fun t => (t.x[0], t.pc)) = some (0, 3) := by decide

/-! ### One step of each instruction (95_test_vectors.md section 2, by the vector's name) -/

/-- H2. -/
theorem test_halt : (after (step (code 0x30 [0x01]))).map (fun t => (t.state, t.pc)) = some (.halted, 0x31) := by decide
/-- F2. -/
theorem test_halt_at_the_end : (after (step (code 0xFF [0x01]))).map (fun t => (t.state, t.pc, t.fault)) =
    some (.halted, 256, none) := by decide
/-- F10. -/
theorem test_loadImmediate : (after (step (code 0xFD [0x82, 0x01, 0x09]))).map (fun t => (t.x[1], t.pc)) =
    some (0x09, 256) := by decide
/-- L5 (source scenario S4). -/
theorem test_loadImmediate_bad_index : (after (step (code 0 [0x82, 0x08, 0x05]))).map (fun t => (t.fault, t.x)) =
    some (some ⟨.registerFault, 8, 0⟩, State.reset.x) := by decide
/-- N2. -/
theorem test_printRegister : (after (step (code 0 [0x47, 0x07]))).map (fun t => (t.out, t.pc)) = some ([244], 2) := by
  decide
/-- F3. -/
theorem test_printRegister_at_the_end : (after (step (code 0xFF [0x47]))).map (fun t => (t.fault, t.out)) =
    some (some ⟨.addressFault, 256, 0xFF⟩, []) := by decide
/-- M4. -/
theorem test_multiply : (after (step { code 0 [0xA2, 0x00, 0x01] with x := #v[0xFF, 0xFF, 0, 0, 0, 0, 0, 0xF4] })).map
    (fun t => (t.out, t.x[0], t.pc)) = some ([65025], 0xFF, 3) := by decide
/-- M10. -/
theorem test_multiply_first_bad_index : (after (step (code 0 [0xA2, 0x09, 0x0A]))).map (fun t => t.fault) =
    some (some ⟨.registerFault, 9, 0⟩) := by decide
/-- P-2. -/
theorem test_push_of_sp : (after (step { code 0 [0x45, 0x07] with plim := 3 })).map
    (fun t => (t.x[7], t.mem.read 0xF3, t.pc)) = some (0xF3, 0xF3, 2) := by decide
/-- P-4, at `p = 0`. -/
theorem test_push_overflow : (after (step { code 0 [0x45, 0x00] with x := #v[0, 0, 0, 0, 0, 0, 0, 5], plim := 6 })).map
    (fun t => (t.fault, t.x[7], t.mem.read 4)) = some (some ⟨.stackOverflow, 4, 0⟩, 5, 0) := by decide
/-- O-4. -/
theorem test_pop_into_sp : (after (step { code 0 [0x46, 0x07] with
    x := #v[0, 0, 0, 0, 0, 0, 0, 0xF3], mem := [(0, 0x46), (1, 0x07), (0xF3, 0x20)] })).map (fun t => t.x[7]) =
    some 0x21 := by decide
/-- O-2. -/
theorem test_pop_underflow : (after (step (code 0 [0x46, 0x00]))).map (fun t => (t.fault, t.x)) =
    some (some ⟨.underflowFault, 0xF4, 0⟩, State.reset.x) := by decide
/-- C-4. -/
theorem test_compare_unsigned : (after (step { code 0 [0xA7, 0x00, 0x01] with
    x := #v[0x80, 0x7F, 0, 0, 0, 0, 0, 0xF4] })).map (fun t => (Ports.flagBits t.fl, t.pc)) = some (0b010, 3) := by decide
/-- C-9. -/
theorem test_compare_bad_index : (after (step { code 0 [0xA7, 0x00, 0x08] with fl := ⟨false, true, false⟩ })).map
    (fun t => (t.fault, Ports.flagBits t.fl)) = some (some ⟨.registerFault, 8, 0⟩, 0b100) := by decide
/-- J3. -/
theorem test_jump : (after (step (code 0 [0x54, 0x07]))).map (fun t => t.pc) = some 0xF4 := by decide
/-- J4. -/
theorem test_jump_bad_index : (after (step (code 9 [0x54, 0x08]))).map (fun t => (t.fault, t.pc)) =
    some (some ⟨.registerFault, 8, 9⟩, 9) := by decide
/-- J10. -/
theorem test_jumpIfEqual_untaken_bad_index : (after (step (code 0x0C [0x55, 0x09]))).map (fun t => (t.pc, t.fault)) =
    some (0x0E, none) := by decide
/-- J5. -/
theorem test_jumpIfEqual_taken : (after (step { code 0x0C [0x55, 0x02] with
    fl := ⟨true, false, false⟩, x := #v[0, 0, 0x20, 0, 0, 0, 0, 0xF4] })).map (fun t => t.pc) = some 0x20 := by decide
/-- J14. -/
theorem test_jumpIfNotEqual_before_any_compare : (after (step { code 0x16 [0x56, 0x02] with
    x := #v[0, 0, 0x1D, 0, 0, 0, 0, 0xF4] })).map (fun t => t.pc) = some 0x1D := by decide
/-- J15. -/
theorem test_jumpIfNotEqual_untaken : (after (step { code 0x16 [0x56, 0x09] with fl := ⟨true, false, false⟩ })).map
    (fun t => (t.pc, t.fault)) = some (0x18, none) := by decide

/-! ### The ALU, the loader, the ports -/

/-- A1. -/
theorem test_alu_add_wraps : (match alu .add 0 1 { State.reset with x := #v[0xC8, 0x64, 0, 0, 0, 0, 0, 0xF4] } with
    | .ok t => some (t.x[0], t.x[1])
    | .error _ => none) = some (0x2C, 0x64) := by decide
/-- A6. -/
theorem test_alu_unsupported : (match alu (.other "DIV") 0 1 State.reset with
    | .ok _ => none
    | .error k => some k.kind) = some .unsupportedOperation := by decide
/-- The first line of R73's example file; a line with a bad numeral; a number above 255; a comment. -/
theorem test_image_lines :
    parseLine ['1', '0', '0', '0', '0', '0', '1', '0', ' ', '#', ' ', 'L', 'D', 'I'] = .ok (some 0x82) ∧
    parseLine ['1', '0', '2'] = .error Trap.loadFormat ∧
    parseLine ['1', '0', '0', '0', '0', '0', '0', '0', '0'] = .error Trap.loadFormat ∧
    parseLine ['#', '1'] = .ok none := by decide
/-- R137 and R160: one bad line in a text, and there is no launch. -/
theorem test_launch_of_a_bad_text : (match State.launchText [['1'], ['1', '2']] with
    | .ok _ => none
    | .error k => some k.kind) = some .loadFormatFault := by decide
/-- S5: the image `01` launched. -/
theorem test_launch : (match State.launch [0x01] with
    | .ok s => (after (step s)).map (fun t => (t.state, t.pc, t.out, t.plim))
    | .error _ => none) = some (.halted, 1, [], 1) := by decide
theorem test_status_after_fault : (after (step (code 0 [0x00]))).map (fun t =>
    ((Ports.status t).state, (Ports.status t).faultKind, (Ports.status t).faultInfo)) = some (2, 4, 0) := by decide
theorem test_trace_past_the_end : (Ports.trace (code 0xFF [0x47])).bytes = [some 0x47, none, none] := by decide

/-! ### Witnesses: each statement's hypotheses are met, each clause at a boundary -/

theorem test_witness_DecodeOfEncodeIsIdentity :
    config.wellFormed ∧ (Instr.loadImmediate 0xFF 0xFF).wellFormed = true := by decide
theorem test_witness_EncodeOfDecodeIsIdentity :
    decodeWith config [0x82, 0x07, 0xFF, 0x01] = .ok (.loadImmediate 7 0xFF, [0x01]) := by decide
theorem test_witness_UnknownOpcodeFaults :
    (code 255 [0x33]).state = .running ∧ (code 255 [0x33]).pc.toNat ≤ 255 ∧
      Spec.operandCount ((code 255 [0x33]).mem.read 255).toNat = none := by decide
theorem test_witness_FetchIsDecodeOfTheBytesAhead : (code 256 []).pc.toNat ≤ 256 := by decide
theorem test_witness_OperandFetchStaysInMemory :
    (code 254 [0x82, 0]).state = .running ∧
    (Spec.operandCount ((code 254 [0x82, 0]).mem.read 254).toNat = some 2 ∧ 255 < (code 254 [0x82, 0]).pc.toNat + 2) ∧
    (Spec.operandCount ((code 253 [0x82, 0, 0]).mem.read 253).toNat = some 2 ∧
      (code 253 [0x82, 0, 0]).pc.toNat + 2 ≤ 255) ∧
    (Spec.operandCount ((code 255 [0x01]).mem.read 255).toNat = some 0 ∧ (code 255 [0x01]).pc.toNat + 0 ≤ 255) := by
  decide
theorem test_witness_FetchReadsOnlyTheInstructionsBytes :
    fetch (code 0 [0x47, 3, 9]) = .ok (.printRegister 3) ∧
    ∀ k, k ≤ (Instr.printRegister 3).operandCount →
      (storeBytes [] 0 [0x47, 3, 77]).read (0 + k) = (code 0 [0x47, 3, 9]).mem.read (0 + k) := by
  refine ⟨by decide, fun k hk => ?_⟩
  have hk : k ≤ 1 := hk
  interval_cases k <;> decide
theorem test_witness_StepRunsTheDecodedInstruction :
    (code 253 [0x82, 8, 5]).state = .running ∧
      decode (Spec.bytesAhead (code 253 [0x82, 8, 5])) = .ok (.loadImmediate 8 5, []) := by decide
theorem test_witness_FaultPriorityIsExact :
    State.reset.state = .running ∧
    Spec.fetchFault (code 256 []) = some (.addressFault, 256) ∧
    Spec.fetchFault (code 255 [0x33]) = some (.unknownOpcode, 0x33) ∧
    Spec.fetchFault (code 254 [0x82, 8]) = some (.addressFault, 256) ∧
    Spec.fetchFault (code 253 [0x82, 8, 5]) = none ∧
    Spec.handlerFault (.loadImmediate 8 5) (code 253 [0x82, 8, 5]) = some (.registerFault, 8) := by decide
theorem test_witness_HandlerFaultsAreExact :
    Spec.handlerFault (.multiply 7 8) State.reset = some (.registerFault, 8) ∧
    Spec.handlerFault (.pop 8) State.reset = some (.registerFault, 8) ∧
    Spec.handlerFault (.pop 0) State.reset = some (.underflowFault, 0xF4) ∧
    Spec.handlerFault (.push 0) { State.reset with plim := 0xF4 } = some (.stackOverflow, 0xF3) ∧
    Spec.handlerFault (.push 0) { State.reset with plim := 0xF3 } = none ∧
    Spec.handlerFault (.jumpIfEqual 8) State.reset = none := by decide
theorem test_witness_FaultEntryChangesNothingElse :
    ∃ t, State.reset.state = .running ∧ step State.reset = .next t ∧ t.state = .faulted := ⟨_, rfl, rfl, rfl⟩
theorem test_witness_StoppedMachineStaysStopped :
    ({ State.reset with state := .halted } : State).state = .halted ∧
    ({ State.reset with state := .faulted } : State).state = .faulted := by decide
theorem test_witness_OnlyHaltEndsARunNormally :
    (∃ t, exec .halt State.reset = .next t ∧ t.state ≠ State.reset.state) ∧
    (∃ t, step (code 0 [0x01]) = .next t ∧ (code 0 [0x01]).state = .running ∧ t.state = .halted) :=
  ⟨⟨_, rfl, by decide⟩, ⟨_, rfl, rfl, rfl⟩⟩
theorem test_witness_AddressFaultIsAlways256 :
    ∃ t f, (code 255 [0x47]).state = .running ∧ (code 255 [0x47]).pc.toNat ≤ 256 ∧ step (code 255 [0x47]) = .next t ∧
      t.fault = some f ∧ t.state = .faulted ∧ f.kind = .addressFault := ⟨_, _, rfl, by decide, rfl, rfl, rfl, rfl⟩
theorem test_witness_NoAluOrLoaderFaultInARun :
    ∃ t f, State.reset.state = .running ∧ step State.reset = .next t ∧ t.state = .faulted ∧ t.fault = some f :=
  ⟨_, _, rfl, rfl, rfl, rfl⟩
theorem test_witness_NonJumpsMovePcForward :
    (∃ t, fetch (code 253 [0x82, 1, 9]) = .ok (.loadImmediate 1 9) ∧ step (code 253 [0x82, 1, 9]) = .next t ∧
      t.state ≠ .faulted ∧ Spec.takenJump (.loadImmediate 1 9) (code 253 [0x82, 1, 9]) = none) ∧
    (∃ t, fetch (code 254 [0x55, 9]) = .ok (.jumpIfEqual 9) ∧ step (code 254 [0x55, 9]) = .next t ∧
      t.state ≠ .faulted ∧ Spec.takenJump (.jumpIfEqual 9) (code 254 [0x55, 9]) = none) ∧
    (∃ t, fetch (code 254 [0x56, 7]) = .ok (.jumpIfNotEqual 7) ∧ step (code 254 [0x56, 7]) = .next t ∧
      t.state ≠ .faulted ∧ Spec.takenJump (.jumpIfNotEqual 7) (code 254 [0x56, 7]) = some 7) :=
  ⟨⟨_, by decide, rfl, by decide, rfl⟩, ⟨_, by decide, rfl, by decide, rfl⟩, ⟨_, by decide, rfl, by decide, rfl⟩⟩
theorem test_witness_HaltStopsAndAdvances :
    (code 255 [0x01]).state = .running ∧ (code 255 [0x01]).pc.toNat ≤ 255 ∧
      (code 255 [0x01]).mem.read (code 255 [0x01]).pc.toNat = 0x01 := by decide
theorem test_witness_LoadImmediateWritesTheLiteral :
    (7 : Byte).toNat < 8 ∧ 8 ≤ (8 : Byte).toNat ∧
    ((code 254 [0x82, 0]).state = .running ∧ 254 ≤ (code 254 [0x82, 0]).pc.toNat ∧
      (code 254 [0x82, 0]).pc.toNat ≤ 255 ∧ (code 254 [0x82, 0]).mem.read 254 = 0x82) ∧
    ((code 255 [0x82]).pc.toNat ≤ 255 ∧ (code 255 [0x82]).mem.read 255 = 0x82) := by decide
theorem test_witness_PrintRegisterEmitsTheRegister :
    (7 : Byte).toNat < 8 ∧ 8 ≤ (8 : Byte).toNat ∧
    ((code 255 [0x47]).state = .running ∧ (code 255 [0x47]).pc.toNat = 255 ∧ (code 255 [0x47]).mem.read 255 = 0x47) := by
  decide
theorem test_witness_MultiplyEmitsTheFullProduct :
    ((7 : Byte).toNat < 8 ∧ (0 : Byte).toNat < 8) ∧ 8 ≤ (8 : Byte).toNat ∧
    ((7 : Byte).toNat < 8 ∧ 8 ≤ (0xFF : Byte).toNat) := by decide
theorem test_witness_PushStoresBelowTheStackPointer :
    ((7 : Byte).toNat < 8 ∧ ({ State.reset with plim := 0xF3 } : State).plim.toNat ≤ (State.reset.x[7] - 1).toNat) ∧
    8 ≤ (8 : Byte).toNat ∧ (State.reset.x[7] - 1).toNat < ({ State.reset with plim := 0xF4 } : State).plim.toNat := by
  decide
theorem test_witness_PopLoadsFromTheStackPointer :
    ((7 : Byte).toNat < 8 ∧ (#v[0, 0, 0, 0, 0, 0, 0, 0xF3] : Vector Byte 8)[7].toNat < 0xF4) ∧
    8 ≤ (8 : Byte).toNat ∧ 0xF4 ≤ State.reset.x[7].toNat := by decide
theorem test_witness_CompareSetsTheFlags :
    ((7 : Byte).toNat < 8 ∧ (7 : Byte).toNat < 8) ∧ 8 ≤ (8 : Byte).toNat ∧
    ((7 : Byte).toNat < 8 ∧ 8 ≤ (8 : Byte).toNat) := by decide
theorem test_witness_JumpGoesToTheRegister : (7 : Byte).toNat < 8 ∧ 8 ≤ (8 : Byte).toNat := by decide
theorem test_witness_JumpIfEqualFollowsTheFlag :
    ((7 : Byte).toNat < 8 ∧ ({ State.reset with fl := ⟨true, false, false⟩ } : State).fl.e = true) ∧
    State.reset.fl.e = false ∧ 8 ≤ (8 : Byte).toNat := by decide
theorem test_witness_JumpIfNotEqualFollowsTheFlag :
    ((7 : Byte).toNat < 8 ∧ State.reset.fl.e = false) ∧
    ({ State.reset with fl := ⟨true, false, false⟩ } : State).fl.e = true ∧ 8 ≤ (8 : Byte).toNat := by decide
theorem test_witness_LoadedLiteralIsPrinted : (7 : Byte).toNat < 8 := by decide
theorem test_witness_CompareIsTrichotomous : (7 : Byte).toNat < 8 ∧ (0 : Byte).toNat < 8 := by decide
theorem test_witness_JumpIfEqualTransfersIffEqual :
    (({ State.reset with fl := ⟨true, false, false⟩ } : State).fl.e = true ∧ (7 : Byte).toNat < 8 ∧
      8 ≤ (8 : Byte).toNat) ∧ (code 254 [0x55, 9]).fl.e = false ∧ (code 254 [0x55, 9]).pc.toNat ≤ 254 := by decide
theorem test_witness_ConditionalJumpsAreComplements :
    (7 : Byte).toNat < 8 ∧ (code 5 []).fl = State.reset.fl := by decide
theorem test_witness_PushPopRoundTrip :
    ([0, 1] : List (Fin 7)).length = ([2, 3] : List (Fin 7)).length ∧ ([2, 3] : List (Fin 7)).Nodup ∧
    ({ State.reset with plim := 0xF2 } : State).x[7].toNat ≤ 0xF4 ∧
    ({ State.reset with plim := 0xF2 } : State).plim.toNat + ([0, 1] : List (Fin 7)).length ≤
      ({ State.reset with plim := 0xF2 } : State).x[7].toNat := by decide
theorem test_witness_AluOperations :
    ((7 : Byte).toNat < 8 ∧ (0 : Byte).toNat < 8) ∧ (AluSelect.add = .mul ∨ AluSelect.add = .add) ∧
    8 ≤ (8 : Byte).toNat := by decide
theorem test_witness_RegisterAccessIsBoundsChecked : 8 ≤ (8 : Byte).toNat ∧ (7 : Byte).toNat < 8 := by decide
theorem test_witness_MemoryAccessIsBoundsChecked : (256 : Nat) ≤ 256 ∧ 255 < 256 ∧ (254 : Nat) ≠ 255 := by decide
theorem test_witness_EqualReadsAreEqualMemories :
    Memory.wf [(3, 1), (255, 2)] ∧ Memory.wf (storeBytes (storeBytes [] 255 [2]) 3 [1]) ∧
    ∀ a, Memory.read [(3, 1), (255, 2)] a = Memory.read (storeBytes (storeBytes [] 255 [2]) 3 [1]) a :=
  ⟨by decide, by decide, fun _ => rfl⟩
theorem test_witness_PushedByteIsFetched :
    (∃ t, exec (.push 0) State.reset = .next t ∧ t.fault = State.reset.fault ∧ t.state ≠ .faulted ∧
      lookupOpcode config (t.mem.read (State.reset.x[7] - 1).toNat) = none) ∧
    (∃ t, exec (.push 0) { State.reset with x := #v[1, 0, 0, 0, 0, 0, 0, 0] } = .next t ∧ t.state ≠ .faulted ∧
      (t.mem.read 255) = 1 ∧ (lookupOpcode config 1).map Entry.operandCount = some 0) ∧
    (∃ t, exec (.push 0) { State.reset with x := #v[0x47, 0, 0, 0, 0, 0, 0, 0xFF] } = .next t ∧ t.state ≠ .faulted ∧
      (t.mem.read 254) = 0x47 ∧ (lookupOpcode config 0x47).map Entry.operandCount = some 1) ∧
    (∃ t, exec (.push 0) { State.reset with x := #v[0x82, 0, 0, 0, 0, 0, 0, 0xFE] } = .next t ∧ t.state ≠ .faulted ∧
      (t.mem.read 253) = 0x82 ∧ (lookupOpcode config 0x82).map Entry.operandCount = some 2) :=
  ⟨⟨_, rfl, rfl, by decide, by decide⟩, ⟨_, rfl, by decide, by decide, by decide⟩,
    ⟨_, rfl, by decide, by decide, by decide⟩, ⟨_, rfl, by decide, by decide, by decide⟩⟩
theorem test_witness_FrameOfTheReadingInstructions :
    ∃ t, Spec.onlyReads (.multiply 7 7) = true ∧ exec (.multiply 7 7) State.reset = .next t ∧ t.state = .running :=
  ⟨_, rfl, rfl, rfl⟩
theorem test_witness_FrameOfLoadImmediate :
    ∃ t, exec (.loadImmediate 7 1) State.reset = .next t ∧ t.state = .running ∧ (6 : Nat) < 8 ∧ 6 ≠ (7 : Byte).toNat :=
  ⟨_, rfl, rfl, by decide, by decide⟩
theorem test_witness_FrameOfPush :
    ∃ t, exec (.push 7) State.reset = .next t ∧ t.state = .running ∧ (pushAddress State.reset).toNat = 0xF3 ∧
      (0xF2 : Nat) ≠ 0xF3 := ⟨_, rfl, rfl, by decide, by decide⟩
theorem test_witness_FrameOfPop :
    ∃ t, exec (.pop 6) { State.reset with x := #v[0, 0, 0, 0, 0, 0, 0, 0xF3] } = .next t ∧ t.state = .running ∧
      (5 : Nat) ≠ (6 : Byte).toNat ∧ (5 : Nat) ≠ 7 := ⟨_, rfl, rfl, by decide, by decide⟩
theorem test_witness_OnlyCompareWritesFlags :
    (∃ t, step (code 0 [0xA7, 0, 0]) = .next t ∧ t.fl ≠ (code 0 [0xA7, 0, 0]).fl) ∧
    (∃ t, exec .halt State.reset = .next t) ∧ (∃ t, alu .add 7 7 State.reset = .ok t) :=
  ⟨⟨_, rfl, by decide⟩, ⟨_, rfl⟩, ⟨_, rfl⟩⟩
theorem test_witness_OnlyPushWritesMemory :
    ∃ t, step (code 0 [0x45, 7]) = .next t ∧ t.mem.read 0xF3 ≠ (code 0 [0x45, 7]).mem.read 0xF3 :=
  ⟨_, rfl, by decide⟩
theorem test_witness_LoadedImageIsNeverOverwritten :
    ∃ t, Host.Core.run Sys2Proof.core 1 { code 0 [0x45, 7] with plim := 2 } = .next t ∧
      1 < ({ code 0 [0x45, 7] with plim := 2 } : State).plim.toNat := ⟨_, rfl, by decide⟩
theorem test_witness_OnlyPrintersAppendToTheOutput :
    (∃ t, exec (.multiply 7 7) State.reset = .next t ∧ t.state ≠ .faulted ∧ Spec.prints (.multiply 7 7) = true) ∧
    (∃ t, exec (.push 0) State.reset = .next t ∧ Spec.prints (.push 0) = false) :=
  ⟨⟨_, rfl, by decide, rfl⟩, ⟨_, rfl, rfl⟩⟩
theorem test_witness_OnlyEqualIsEverRead :
    (∃ t u, exec (.jumpIfEqual 7) { State.reset with fl := ⟨true, false, false⟩ } = .next t ∧
      exec (.jumpIfEqual 7) { State.reset with fl := ⟨true, true, true⟩ } = .next u) ∧
    (∃ t u, exec (.compare 7 0) { State.reset with fl := ⟨false, false, false⟩ } = .next t ∧
      exec (.compare 7 0) { State.reset with fl := ⟨true, true, true⟩ } = .next u) :=
  ⟨⟨_, _, rfl, rfl⟩, ⟨_, _, rfl, rfl⟩⟩
theorem test_witness_OutputIsNeverRead : ∃ t, step (code 0 [0x47, 7]) = .next t ∧ t.out ≠ [] := ⟨_, rfl, by decide⟩
theorem test_witness_PlimIsReadByPushOnly :
    (∀ a, fetch (code 0 [0x46, 0]) ≠ .ok (.push a)) ∧ ∃ t, step (code 0 [0x46, 0]) = .next t := by
  refine ⟨fun a h => ?_, _, rfl⟩
  have hf : fetch (code 0 [0x46, 0]) = .ok (.pop 0) := by decide
  rw [hf] at h
  cases h
theorem test_witness_StepKeepsTheInvariant : Inv (code 0 [0x45, 7]) ∧ ∃ t, step (code 0 [0x45, 7]) = .next t :=
  ⟨⟨by decide, by decide, by decide, by decide, by decide, fun f h => by cases h⟩, _, rfl⟩
theorem test_witness_LaunchMeetsTheInvariant : imageWellFormed (List.replicate 256 0xFF) := by
  rw [imageWellFormed, List.length_replicate]
theorem test_witness_ExecutionBeginsAtZero : ∃ s, State.launch [0x82, 0, 8] = .ok s := ⟨_, rfl⟩
theorem test_witness_ResetLeaves : (6 : Nat) < 7 ∧ (255 : Nat) < 256 := by decide
theorem test_witness_LaunchStateOfAnImage : (List.replicate 256 (0xFF : Byte)).length ≤ 256 := by
  rw [List.length_replicate]
theorem test_witness_LongImageIsRefused : 256 < (List.replicate 257 (0 : Byte)).length := by
  rw [List.length_replicate]; decide
theorem test_witness_PortsRealiseTheLaunch : (List.replicate 256 (0xFF : Byte)).length ≤ 256 := by
  rw [List.length_replicate]
theorem test_witness_ImageLineIsItsByte :
    (∀ ch ∈ ([' '] ++ ['\t'] : List Char), isBlank ch = true) ∧
    ('#' ∉ ['L', 'D'] ∧ (∀ ch, (['L', 'D'] : List Char).head? = some ch ∨ ['L', 'D'].getLast? = some ch →
      isBlank ch = false) ∧ ¬ Spec.hasDigit ['L', 'D']) ∧
    (Spec.hasDigit (List.replicate 8 '1') ∧ Spec.isNumeral (List.replicate 8 '1') ∧
      Spec.numeral (List.replicate 8 '1') = 255) ∧
    (Spec.hasDigit ('1' :: List.replicate 8 '0') ∧ Spec.isNumeral ('1' :: List.replicate 8 '0') ∧
      Spec.numeral ('1' :: List.replicate 8 '0') = 256) ∧
    (Spec.hasDigit ['1', ' ', '0'] ∧ ¬ Spec.isNumeral ['1', ' ', '0']) := by
  simp [Spec.hasDigit, Spec.isNumeral, Spec.numeral, isBlank, List.replicate]
  rintro ch (rfl | rfl) <;> decide
theorem test_witness_TextIsLaunchedOrRefused :
    (∃ line ∈ ([['1'], ['1', '2']] : List (List Char)), parseLine line = .error ⟨.loadFormatFault, 0⟩) ∧
    ([['1'], ['#']] : List (List Char)).map parseLine = [some (1 : Byte), none].map .ok := by
  decide

end Sys2Proof.Tests
end

section
/-! SUPPORT. For each instruction, once, everything its execution can answer: the committed next state, or the fault
that is taken, with the checks that select it. Every instruction answers a next state. -/

namespace Sys2Proof.Machine

/-- The ALU driven with ADD: the wrapped sum in the first register and nothing else, or RegisterFault. -/
theorem alu_add_cases (a b : Byte) (s : State) :
    (∃ (ha : a.toNat < 8) (hb : b.toNat < 8), alu .add a b s = .ok (s.setReg ⟨a.toNat, ha⟩
      (BitVec.ofNat 8 ((s.getReg ⟨a.toNat, ha⟩).toNat + (s.getReg ⟨b.toNat, hb⟩).toNat)))) ∨
    (8 ≤ a.toNat ∧ alu .add a b s = .error (Trap.register a)) ∨
    (a.toNat < 8 ∧ 8 ≤ b.toNat ∧ alu .add a b s = .error (Trap.register b)) := by
  rcases registerPair_cases a b s with ⟨ha, hb, h⟩ | ⟨ha, h⟩ | ⟨ha, hb, h⟩
  · exact .inl ⟨ha, hb, by simp [alu, h, regWrite_of_lt, ha]⟩
  · exact .inr (.inl ⟨ha, by simp [alu, h]⟩)
  · exact .inr (.inr ⟨ha, hb, by simp [alu, h]⟩)

@[simp] theorem alu_other (name : String) (a b : Byte) (s : State) :
    alu (.other name) a b s = .error Trap.unsupported := rfl

@[simp] theorem exec_halt (s : State) : exec .halt s = .next (s.advance 0).halt := rfl

theorem exec_loadImmediate_cases (a b : Byte) (s : State) :
    (∃ h : a.toNat < 8, exec (.loadImmediate a b) s = .next ((s.setReg ⟨a.toNat, h⟩ b).advance 2)) ∨
    (8 ≤ a.toNat ∧ exec (.loadImmediate a b) s = .next (s.takeFault (Trap.register a))) := by
  rcases regIndex_cases a with ⟨h, -⟩ | ⟨h, -⟩
  · exact .inl ⟨h, by simp [exec, execLoadImmediate, regWrite_of_lt, h, literalOperand]⟩
  · exact .inr ⟨h, by simp [exec, execLoadImmediate, regWrite_of_ge, h]⟩

theorem exec_printRegister_cases (a : Byte) (s : State) :
    (∃ h : a.toNat < 8, exec (.printRegister a) s =
      .next ((s.emit ((s.getReg ⟨a.toNat, h⟩).setWidth 16)).advance 1)) ∨
    (8 ≤ a.toNat ∧ exec (.printRegister a) s = .next (s.takeFault (Trap.register a))) := by
  rcases regIndex_cases a with ⟨h, -⟩ | ⟨h, -⟩
  · exact .inl ⟨h, by simp [exec, execPrintRegister, regRead_of_lt, h]⟩
  · exact .inr ⟨h, by simp [exec, execPrintRegister, regRead_of_ge, h]⟩

theorem exec_multiply_cases (a b : Byte) (s : State) :
    (∃ (ha : a.toNat < 8) (hb : b.toNat < 8), exec (.multiply a b) s =
      .next ((s.emit (product (s.getReg ⟨a.toNat, ha⟩) (s.getReg ⟨b.toNat, hb⟩))).advance 2)) ∨
    (8 ≤ a.toNat ∧ exec (.multiply a b) s = .next (s.takeFault (Trap.register a))) ∨
    (a.toNat < 8 ∧ 8 ≤ b.toNat ∧ exec (.multiply a b) s = .next (s.takeFault (Trap.register b))) := by
  rcases alu_mul_cases a b s with ⟨ha, hb, h⟩ | ⟨ha, h⟩ | ⟨ha, hb, h⟩
  · exact .inl ⟨ha, hb, by simp [exec, execMultiply, h]⟩
  · exact .inr (.inl ⟨ha, by simp [exec, execMultiply, h]⟩)
  · exact .inr (.inr ⟨ha, hb, by simp [exec, execMultiply, h]⟩)

theorem exec_push_cases (a : Byte) (s : State) :
    (∃ h : a.toNat < 8, s.plim.toNat ≤ (pushAddress s).toNat ∧ exec (.push a) s =
      .next (((s.setSp (pushAddress s)).setMem (s.mem.write (pushAddress s).toNat
        ((s.setSp (pushAddress s)).getReg ⟨a.toNat, h⟩))).advance 1)) ∨
    (8 ≤ a.toNat ∧ exec (.push a) s = .next (s.takeFault (Trap.register a))) ∨
    (a.toNat < 8 ∧ (pushAddress s).toNat < s.plim.toNat ∧
      exec (.push a) s = .next (s.takeFault (Trap.overflow (pushAddress s)))) := by
  rcases push_cases config a s with ⟨ha, h⟩ | ⟨ha, -, hl, h⟩ | ⟨ha, hl, h⟩
  · exact .inr (.inl ⟨ha, by simp [exec, execPush, h]⟩)
  · exact .inr (.inr ⟨ha, hl, by simp [exec, execPush, h]⟩)
  · exact .inl ⟨ha, hl rfl, by simp [exec, execPush, h]⟩

theorem exec_pop_cases (a : Byte) (s : State) :
    (∃ h : a.toNat < 8, s.sp.toNat < Config.spInit.toNat ∧ exec (.pop a) s =
      .next (((s.setReg ⟨a.toNat, h⟩ (s.mem.read s.sp.toNat)).setSp
        ((s.setReg ⟨a.toNat, h⟩ (s.mem.read s.sp.toNat)).sp + 1)).advance 1)) ∨
    (8 ≤ a.toNat ∧ exec (.pop a) s = .next (s.takeFault (Trap.register a))) ∨
    (a.toNat < 8 ∧ Config.spInit.toNat ≤ s.sp.toNat ∧
      exec (.pop a) s = .next (s.takeFault (Trap.underflow s.sp))) := by
  rcases pop_cases config a s with ⟨ha, h⟩ | ⟨ha, -, hl, h⟩ | ⟨ha, hl, h⟩
  · exact .inr (.inl ⟨ha, by simp [exec, execPop, h]⟩)
  · exact .inr (.inr ⟨ha, hl, by simp [exec, execPop, h]⟩)
  · exact .inl ⟨ha, hl rfl, by simp [exec, execPop, h]⟩

theorem exec_compare_cases (a b : Byte) (s : State) :
    (∃ (ha : a.toNat < 8) (hb : b.toNat < 8), exec (.compare a b) s = .next
      ((s.setFlags (compareFlags (s.getReg ⟨a.toNat, ha⟩) (s.getReg ⟨b.toNat, hb⟩))).advance 2)) ∨
    (8 ≤ a.toNat ∧ exec (.compare a b) s = .next (s.takeFault (Trap.register a))) ∨
    (a.toNat < 8 ∧ 8 ≤ b.toNat ∧ exec (.compare a b) s = .next (s.takeFault (Trap.register b))) := by
  rcases registerPair_cases a b s with ⟨ha, hb, h⟩ | ⟨ha, h⟩ | ⟨ha, hb, h⟩
  · exact .inl ⟨ha, hb, by simp [exec, execCompare, h]⟩
  · exact .inr (.inl ⟨ha, by simp [exec, execCompare, h]⟩)
  · exact .inr (.inr ⟨ha, hb, by simp [exec, execCompare, h]⟩)

theorem exec_jump_cases (a : Byte) (s : State) :
    (∃ h : a.toNat < 8, exec (.jump a) s = .next (s.jumpTo ((s.getReg ⟨a.toNat, h⟩).setWidth 9))) ∨
    (8 ≤ a.toNat ∧ exec (.jump a) s = .next (s.takeFault (Trap.register a))) := by
  rcases takeJump_cases a s with ⟨ha, h⟩ | ⟨ha, h⟩
  · exact .inl ⟨ha, by simp [exec, execJump, h]⟩
  · exact .inr ⟨ha, by simp [exec, execJump, h]⟩

/-- JUMP-IF-EQUAL with `fl.E` set is JUMP (R124). -/
theorem exec_jumpIfEqual_taken {s : State} (a : Byte) (h : s.fl.e = true) :
    exec (.jumpIfEqual a) s = exec (.jump a) s := by
  simp [exec, execJumpIfEqual, execJump, equalSet, h]

theorem exec_jumpIfEqual_untaken {s : State} (a : Byte) (h : s.fl.e = false) :
    exec (.jumpIfEqual a) s = .next (s.advance 1) := by
  simp [exec, execJumpIfEqual, equalSet, h]

/-- JUMP-IF-NOT-EQUAL with `fl.E` clear is JUMP (R126). -/
theorem exec_jumpIfNotEqual_taken {s : State} (a : Byte) (h : s.fl.e = false) :
    exec (.jumpIfNotEqual a) s = exec (.jump a) s := by
  simp [exec, execJumpIfNotEqual, execJump, equalSet, h]

theorem exec_jumpIfNotEqual_untaken {s : State} (a : Byte) (h : s.fl.e = true) :
    exec (.jumpIfNotEqual a) s = .next (s.advance 1) := by
  simp [exec, execJumpIfNotEqual, equalSet, h]

end Sys2Proof.Machine
end

section
/-! SUPPORT. The register file's bounds check and the frame of the flags register (10_state.md rules R19 and R26). -/

namespace Sys2Proof.Machine

theorem alu_keeps_flags {sel : AluSelect} {a b : Byte} {s t : State} (h : alu sel a b s = .ok t) : t.fl = s.fl := by
  cases sel with
  | mul =>
    rcases alu_mul_cases a b s with ⟨_, _, e⟩ | ⟨_, e⟩ | ⟨_, _, e⟩ <;> cases e.symm.trans h
    rfl
  | add =>
    rcases alu_add_cases a b s with ⟨_, _, e⟩ | ⟨_, e⟩ | ⟨_, _, e⟩ <;> cases e.symm.trans h
    rfl
  | other name => cases h

theorem exec_jump_keeps_flags (a : Byte) (s : State) : ∃ t, exec (.jump a) s = .next t ∧ t.fl = s.fl := by
  rcases exec_jump_cases a s with ⟨_, e⟩ | ⟨_, e⟩ <;> exact ⟨_, e, rfl⟩

theorem exec_keeps_flags {i : Instr} (s : State) (hi : ∀ a b, i ≠ .compare a b) :
    ∃ t, exec i s = .next t ∧ t.fl = s.fl := by
  cases i with
  | halt => exact ⟨_, exec_halt s, rfl⟩
  | loadImmediate a b => rcases exec_loadImmediate_cases a b s with ⟨_, e⟩ | ⟨_, e⟩ <;> exact ⟨_, e, rfl⟩
  | printRegister a => rcases exec_printRegister_cases a s with ⟨_, e⟩ | ⟨_, e⟩ <;> exact ⟨_, e, rfl⟩
  | multiply a b => rcases exec_multiply_cases a b s with ⟨_, _, e⟩ | ⟨_, e⟩ | ⟨_, _, e⟩ <;> exact ⟨_, e, rfl⟩
  | push a => rcases exec_push_cases a s with ⟨_, _, e⟩ | ⟨_, e⟩ | ⟨_, _, e⟩ <;> exact ⟨_, e, rfl⟩
  | pop a => rcases exec_pop_cases a s with ⟨_, _, e⟩ | ⟨_, e⟩ | ⟨_, _, e⟩ <;> exact ⟨_, e, rfl⟩
  | compare a b => exact absurd rfl (hi a b)
  | jump a => exact exec_jump_keeps_flags a s
  | jumpIfEqual a =>
    cases he : s.fl.e with
    | true => exact exec_jumpIfEqual_taken a he ▸ exec_jump_keeps_flags a s
    | false => exact ⟨_, exec_jumpIfEqual_untaken a he, rfl⟩
  | jumpIfNotEqual a =>
    cases he : s.fl.e with
    | true => exact ⟨_, exec_jumpIfNotEqual_untaken a he, rfl⟩
    | false => exact exec_jumpIfNotEqual_taken a he ▸ exec_jump_keeps_flags a s

theorem fl_eq_of_exec {i : Instr} {s t : State} (h : exec i s = .next t) (hi : ∀ a b, i ≠ .compare a b) :
    t.fl = s.fl := by
  obtain ⟨u, hu, hfl⟩ := exec_keeps_flags s hi
  cases hu.symm.trans h
  exact hfl

/-- COMPARE completes and leaves the execution state, or its fault leaves the flags. -/
theorem exec_compare_state_or_flags {a b : Byte} {s t : State} (h : exec (.compare a b) s = .next t) :
    t.state = s.state ∨ t.fl = s.fl := by
  rcases exec_compare_cases a b s with ⟨_, _, e⟩ | ⟨_, e⟩ | ⟨_, _, e⟩ <;> cases e.symm.trans h
  · exact .inl rfl
  · exact .inr rfl
  · exact .inr rfl

/-- A step that changes the flags is a completed COMPARE: a stopped machine, a fetch fault and every other instruction
leave them. -/
theorem compare_of_step_changes_flags {s t : State} (h : step s = .next t) (hfl : t.fl ≠ s.fl) :
    ∃ a b, fetch s = .ok (.compare a b) ∧ t.state = .running := by
  rcases step_cases h with ⟨-, rfl⟩ | ⟨-, k, -, rfl⟩ | ⟨hrun, i, hf, he⟩
  · exact absurd rfl hfl
  · exact absurd (State.takeFault_fl s k) hfl
  · by_cases hi : ∃ a b, i = .compare a b
    · obtain ⟨a, b, rfl⟩ := hi
      exact ⟨a, b, hf, ((exec_compare_state_or_flags he).resolve_right hfl).trans hrun⟩
    · exact absurd (fl_eq_of_exec he fun a b hab => hi ⟨a, b, hab⟩) hfl

/-- Settles O42: the first clause by the inversion of a step, the others by the flags' frame of an instruction, of a
fault and of the ALU. -/
theorem onlyCompareWritesFlags : Obligations.OnlyCompareWritesFlags := by
  refine ⟨?_, ?_, ?_, ?_⟩
  · intro s t
    exact compare_of_step_changes_flags
  · intro i s t
    exact fl_eq_of_exec
  · exact State.takeFault_fl
  · intro sel a b s t
    exact alu_keeps_flags

/-- Settles O34: the two sides of the bounds check, for the read and for the write. -/
theorem registerAccessIsBoundsChecked : Obligations.RegisterAccessIsBoundsChecked := by
  intro i v s
  constructor
  · intro h
    exact ⟨regRead_of_ge s h, regWrite_of_ge v s h⟩
  · intro h
    exact ⟨regRead_of_lt s h, _, regWrite_of_lt v s h, rfl⟩

end Sys2Proof.Machine
end

section
/-! SUPPORT. What a memory read answers after a memory write (20_memory.md rule R42). -/

namespace Sys2Proof.Machine

theorem memRead_of_memWrite_same {a : Nat} {v : Byte} {s t : State} (h : memWrite a v s = .ok t) :
    memRead a t = .ok v := by
  rcases Nat.lt_or_ge a 256 with ha | ha
  · cases (memWrite_of_lt v s ha).symm.trans h
    simp [memRead_of_lt, ha]
  · cases (memWrite_of_ge v s ha).symm.trans h

/-- A write leaves the answer of a read at any other address, a fault included. -/
theorem memRead_of_memWrite_of_ne {a b : Nat} {v : Byte} {s t : State} (h : memWrite a v s = .ok t) (hb : b ≠ a) :
    memRead b t = memRead b s := by
  rcases Nat.lt_or_ge a 256 with ha | ha
  · cases (memWrite_of_lt v s ha).symm.trans h
    simp [memRead, Memory.read_write_of_ne _ v hb]
  · cases (memWrite_of_ge v s ha).symm.trans h

/-- Settles O35: the two sides of the bounds check, then the read after the write at the same and at another address. -/
theorem memoryAccessIsBoundsChecked : Obligations.MemoryAccessIsBoundsChecked := by
  intro a v s
  constructor
  · intro ha
    exact ⟨memRead_of_ge s ha, memWrite_of_ge v s ha⟩
  · intro ha
    have hw := memWrite_of_lt v s ha
    exact ⟨_, hw, memRead_of_memWrite_same hw, fun _ => memRead_of_memWrite_of_ne hw⟩

end Sys2Proof.Machine
end

section
/-! SUPPORT. An instruction whose operand bytes end past memory (40_fetch_decode_cycle.md rule R79), and the decoder on
a list that begins with a whole instruction. -/

namespace Sys2Proof

variable {ε : Type} {c : Config} {readAt : Nat → Except ε Byte} {unknown : Byte → ε} {op a b : Byte} {e : ε}

theorem decodeFrom_oneOperand_missing {mk : Byte → Instr} (h : readAt 0 = .ok op)
    (hl : lookupOpcode c op = some (.oneOperand mk)) (ha : readAt 1 = .error e) :
    decodeFrom c readAt unknown = .error e := by
  simp [decodeFrom, h, hl, ha]

theorem decodeFrom_twoOperands_first_missing {mk : Byte → Byte → Instr} (h : readAt 0 = .ok op)
    (hl : lookupOpcode c op = some (.twoOperands mk)) (ha : readAt 1 = .error e) :
    decodeFrom c readAt unknown = .error e := by
  simp [decodeFrom, h, hl, ha]

theorem decodeFrom_twoOperands_second_missing {mk : Byte → Byte → Instr} (h : readAt 0 = .ok op)
    (hl : lookupOpcode c op = some (.twoOperands mk)) (ha : readAt 1 = .ok a) (hb : readAt 2 = .error e) :
    decodeFrom c readAt unknown = .error e := by
  simp [decodeFrom, h, hl, ha, hb]

theorem decodeWith_oneOperand {mk : Byte → Instr} (hl : lookupOpcode c op = some (.oneOperand mk))
    (hn : (mk a).length = 2) (rest : List Byte) : decodeWith c (op :: a :: rest) = .ok (mk a, rest) := by
  have hd : decodeFrom c (byteAt (op :: a :: rest)) .unknownOpcode = .ok (mk a) := decodeFrom_oneOperand rfl hl rfl
  simp [decodeWith, hd, hn]

theorem decodeWith_twoOperands {mk : Byte → Byte → Instr} (hl : lookupOpcode c op = some (.twoOperands mk))
    (hn : (mk a b).length = 3) (rest : List Byte) : decodeWith c (op :: a :: b :: rest) = .ok (mk a b, rest) := by
  have hd : decodeFrom c (byteAt (op :: a :: b :: rest)) .unknownOpcode = .ok (mk a b) :=
    decodeFrom_twoOperands rfl hl rfl rfl
  simp [decodeWith, hd, hn]

end Sys2Proof

namespace Sys2Proof.Machine

/-- R79: the first operand byte that is not in memory is the one at 256, so that is the address the fault names. -/
theorem fetch_of_operand_past_memory {s : State} {e : Entry} (hp : s.pc.toNat ≤ 255)
    (hl : lookupOpcode config (s.mem.read s.pc.toNat) = some e) (hn : 255 < s.pc.toNat + e.operandCount) :
    fetch s = .error (Trap.address 256) := by
  have hop : memRead (s.pc.toNat + 0) s = .ok (s.mem.read s.pc.toNat) := memRead_of_lt s (by omega)
  have hend : ∀ k, s.pc.toNat + k = 256 → memRead (s.pc.toNat + k) s = .error (Trap.address 256) := by
    intro k hk
    rw [hk]
    exact memRead_of_ge s le_rfl
  cases e with
  | noOperand i => exact absurd hn (Nat.not_lt.2 hp)
  | oneOperand mk =>
    have hn : 255 < s.pc.toNat + 1 := hn
    exact decodeFrom_oneOperand_missing hop hl (hend 1 (by omega))
  | twoOperands mk =>
    have hn : 255 < s.pc.toNat + 2 := hn
    rcases Nat.lt_or_ge (s.pc.toNat + 1) 256 with h1 | h1
    · exact decodeFrom_twoOperands_second_missing hop hl (memRead_of_lt s h1) (hend 2 (by omega))
    · exact decodeFrom_twoOperands_first_missing hop hl (hend 1 (by omega))

theorem State.takeFault_register (s : State) (a : Byte) :
    s.takeFault (Trap.register a) = Spec.faulted s .registerFault (a.setWidth 9) := rfl

theorem State.takeFault_address_256 (s : State) :
    s.takeFault (Trap.address 256) = Spec.faulted s .addressFault 256 := rfl

theorem step_of_operand_past_memory {s : State} {e : Entry} (hr : s.state = .running) (hp : s.pc.toNat ≤ 255)
    (hl : lookupOpcode config (s.mem.read s.pc.toNat) = some e) (hn : 255 < s.pc.toNat + e.operandCount) :
    step s = .next (Spec.faulted s .addressFault 256) := by
  rw [step_of_fetch_fault hr (fetch_of_operand_past_memory hp hl hn), State.takeFault_address_256]

end Sys2Proof.Machine
end

section
/-! SUPPORT. LOAD-IMMEDIATE and PRINT-REGISTER, and the one after the other (42_load_print.md rules R95 to R97). -/

namespace Sys2Proof.Machine

theorem lookupOpcode_loadImmediate : lookupOpcode config 0x82 = some (.twoOperands .loadImmediate) := rfl

theorem lookupOpcode_printRegister : lookupOpcode config 0x47 = some (.oneOperand .printRegister) := rfl

theorem exec_loadImmediate_of_lt {a : Byte} (b : Byte) (s : State) (h : a.toNat < 8) :
    exec (.loadImmediate a b) s = .next ((s.setReg ⟨a.toNat, h⟩ b).advance 2) := by
  rcases exec_loadImmediate_cases a b s with ⟨_, e⟩ | ⟨hge, _⟩
  · exact e
  · omega

theorem exec_loadImmediate_of_ge {a : Byte} (b : Byte) (s : State) (h : 8 ≤ a.toNat) :
    exec (.loadImmediate a b) s = .next (s.takeFault (Trap.register a)) := by
  rcases exec_loadImmediate_cases a b s with ⟨hlt, _⟩ | ⟨_, e⟩
  · omega
  · exact e

theorem exec_printRegister_of_lt {a : Byte} (s : State) (h : a.toNat < 8) :
    exec (.printRegister a) s = .next ((s.emit ((s.getReg ⟨a.toNat, h⟩).setWidth 16)).advance 1) := by
  rcases exec_printRegister_cases a s with ⟨_, e⟩ | ⟨hge, _⟩
  · exact e
  · omega

theorem exec_printRegister_of_ge {a : Byte} (s : State) (h : 8 ≤ a.toNat) :
    exec (.printRegister a) s = .next (s.takeFault (Trap.register a)) := by
  rcases exec_printRegister_cases a s with ⟨hlt, _⟩ | ⟨_, e⟩
  · omega
  · exact e

/-- Settles O19: the two sides of the register check, the decoder on a two-operand entry, and the operand fetch past
the end of memory. -/
theorem loadImmediateWritesTheLiteral : Obligations.LoadImmediateWritesTheLiteral := by
  intro a b s
  refine ⟨?_, ?_, ?_, ?_⟩
  · intro h
    exact exec_loadImmediate_of_lt b s h
  · intro h
    rw [exec_loadImmediate_of_ge b s h, State.takeFault_register]
  · exact decodeWith_twoOperands lookupOpcode_loadImmediate rfl
  · intro hr hlo hhi hop
    have hl : lookupOpcode config (s.mem.read s.pc.toNat) = some (.twoOperands .loadImmediate) := by
      rw [hop, lookupOpcode_loadImmediate]
    have hn : 255 < s.pc.toNat + 2 := by omega
    exact step_of_operand_past_memory hr hhi hl hn

/-- Settles O20: the two sides of the register check, the decoder on a one-operand entry, and the operand fetch past
the end of memory. -/
theorem printRegisterEmitsTheRegister : Obligations.PrintRegisterEmitsTheRegister := by
  intro a s
  refine ⟨?_, ?_, ?_, ?_⟩
  · intro h
    exact exec_printRegister_of_lt s h
  · intro h
    rw [exec_printRegister_of_ge s h, State.takeFault_register]
  · exact decodeWith_oneOperand lookupOpcode_printRegister rfl
  · intro hr hpc hop
    have hl : lookupOpcode config (s.mem.read s.pc.toNat) = some (.oneOperand .printRegister) := by
      rw [hpc, hop, lookupOpcode_printRegister]
    have hn : 255 < s.pc.toNat + 1 := by omega
    exact step_of_operand_past_memory hr hpc.le hl hn

/-- Settles O28: the register printed is the one just written, so it reads as the literal. -/
theorem loadedLiteralIsPrinted : Obligations.LoadedLiteralIsPrinted := by
  intro r v s hr
  refine ⟨_, _, exec_loadImmediate_of_lt v s hr, exec_printRegister_of_lt _ hr, ?_⟩
  have hread : ((s.setReg ⟨r.toNat, hr⟩ v).advance 2).getReg ⟨r.toNat, hr⟩ = v := by simp
  simp [hread]

end Sys2Proof.Machine
end

section
/-! SUPPORT. The frame of the output: which instructions append to it, and what (43_alu.md rule R106). -/

namespace Sys2Proof.Machine

/-- A conditional jump is JUMP when it is taken and moves past its own bytes when it is not (R124, R126). -/
theorem exec_conditionalJump_cases {i : Instr} (a : Byte) (s : State)
    (hi : i = .jumpIfEqual a ∨ i = .jumpIfNotEqual a) :
    exec i s = exec (.jump a) s ∨ exec i s = .next (s.advance 1) := by
  rcases hi with rfl | rfl <;> cases he : s.fl.e
  · exact .inr (exec_jumpIfEqual_untaken a he)
  · exact .inl (exec_jumpIfEqual_taken a he)
  · exact .inl (exec_jumpIfNotEqual_taken a he)
  · exact .inr (exec_jumpIfNotEqual_untaken a he)

theorem exec_jump_keeps_out (a : Byte) (s : State) : ∃ t, exec (.jump a) s = .next t ∧ t.out = s.out := by
  rcases exec_jump_cases a s with ⟨_, e⟩ | ⟨_, e⟩ <;> exact ⟨_, e, rfl⟩

theorem exec_conditionalJump_keeps_out {i : Instr} (a : Byte) (s : State)
    (hi : i = .jumpIfEqual a ∨ i = .jumpIfNotEqual a) : ∃ t, exec i s = .next t ∧ t.out = s.out := by
  rcases exec_conditionalJump_cases a s hi with e | e
  · exact e ▸ exec_jump_keeps_out a s
  · exact ⟨_, e, rfl⟩

theorem exec_keeps_out {i : Instr} (s : State) (hi : Spec.prints i = false) :
    ∃ t, exec i s = .next t ∧ t.out = s.out := by
  cases i with
  | halt => exact ⟨_, exec_halt s, rfl⟩
  | loadImmediate a b => rcases exec_loadImmediate_cases a b s with ⟨_, e⟩ | ⟨_, e⟩ <;> exact ⟨_, e, rfl⟩
  | printRegister a => cases hi
  | multiply a b => cases hi
  | push a => rcases exec_push_cases a s with ⟨_, _, e⟩ | ⟨_, e⟩ | ⟨_, _, e⟩ <;> exact ⟨_, e, rfl⟩
  | pop a => rcases exec_pop_cases a s with ⟨_, _, e⟩ | ⟨_, e⟩ | ⟨_, _, e⟩ <;> exact ⟨_, e, rfl⟩
  | compare a b => rcases exec_compare_cases a b s with ⟨_, _, e⟩ | ⟨_, e⟩ | ⟨_, _, e⟩ <;> exact ⟨_, e, rfl⟩
  | jump a => exact exec_jump_keeps_out a s
  | jumpIfEqual a => exact exec_conditionalJump_keeps_out a s (.inl rfl)
  | jumpIfNotEqual a => exact exec_conditionalJump_keeps_out a s (.inr rfl)

theorem out_eq_of_exec {i : Instr} {s t : State} (h : exec i s = .next t) (hi : Spec.prints i = false) :
    t.out = s.out := by
  obtain ⟨u, hu, hout⟩ := exec_keeps_out s hi
  cases hu.symm.trans h
  exact hout

/-- PRINT-REGISTER and MULTIPLY append one value, or take their RegisterFault, which discards it (R140). -/
theorem exec_printer_cases {i : Instr} {s t : State} (h : exec i s = .next t) (hi : Spec.prints i = true) :
    (∃ v, t.out = s.out ++ [v]) ∨ ∃ k, t = s.takeFault k := by
  cases i with
  | printRegister a =>
    rcases exec_printRegister_cases a s with ⟨_, e⟩ | ⟨_, e⟩ <;> cases e.symm.trans h
    · exact .inl ⟨_, rfl⟩
    · exact .inr ⟨_, rfl⟩
  | multiply a b =>
    rcases exec_multiply_cases a b s with ⟨_, _, e⟩ | ⟨_, e⟩ | ⟨_, _, e⟩ <;> cases e.symm.trans h
    · exact .inl ⟨_, rfl⟩
    · exact .inr ⟨_, rfl⟩
    · exact .inr ⟨_, rfl⟩
  | _ => cases hi

theorem exec_printer_appends {i : Instr} {s t : State} (h : exec i s = .next t) (ht : t.state ≠ .faulted)
    (hi : Spec.prints i = true) : ∃ v, t.out = s.out ++ [v] := by
  rcases exec_printer_cases h hi with happ | ⟨k, rfl⟩
  · exact happ
  · exact absurd (State.takeFault_state s k) ht

theorem exec_keeps_out_or_appends {i : Instr} {s t : State} (h : exec i s = .next t) :
    t.out = s.out ∨ ∃ v, t.out = s.out ++ [v] := by
  cases hi : Spec.prints i with
  | false => exact .inl (out_eq_of_exec h hi)
  | true =>
    rcases exec_printer_cases h hi with happ | ⟨k, rfl⟩
    · exact .inr happ
    · exact .inl (State.takeFault_out s k)

theorem step_keeps_out_or_appends {s t : State} (h : step s = .next t) :
    t.out = s.out ∨ ∃ v, t.out = s.out ++ [v] := by
  rcases step_cases h with ⟨-, rfl⟩ | ⟨-, k, -, rfl⟩ | ⟨-, i, -, he⟩
  · exact .inl rfl
  · exact .inl (State.takeFault_out s k)
  · exact exec_keeps_out_or_appends he

/-- Settles O45: the two printers' cases, the output's frame of the other instructions, and the inversion of a step. -/
theorem onlyPrintersAppendToTheOutput : Obligations.OnlyPrintersAppendToTheOutput := by
  refine ⟨?_, ?_, ?_⟩
  · intro i s t
    exact exec_printer_appends
  · intro i s t
    exact out_eq_of_exec
  · intro s t
    exact step_keeps_out_or_appends

end Sys2Proof.Machine
end

section
/-! SUPPORT. The comparator and COMPARE (45_compare.md rules R117 to R119). -/

namespace Sys2Proof.Machine

theorem compareFlags_e_iff (va vb : Byte) : (compareFlags va vb).e = true ↔ va.toNat = vb.toNat := by
  simp [compareFlags, BitVec.toNat_inj]

theorem compareFlags_l_iff (va vb : Byte) : (compareFlags va vb).l = true ↔ va.toNat < vb.toNat := by
  simp only [compareFlags, decide_eq_true_eq]

theorem compareFlags_g_iff (va vb : Byte) : (compareFlags va vb).g = true ↔ va.toNat > vb.toNat := by
  simp only [compareFlags, decide_eq_true_eq]

/-- The three values the comparator has, one for each order of the two numbers. -/
theorem compareFlags_cases (va vb : Byte) :
    compareFlags va vb = ⟨true, false, false⟩ ∨ compareFlags va vb = ⟨false, true, false⟩ ∨
      compareFlags va vb = ⟨false, false, true⟩ := by
  have hne : va.toNat ≠ vb.toNat → va ≠ vb := mt (congrArg BitVec.toNat)
  rcases Nat.lt_trichotomy va.toNat vb.toNat with h | h | h
  · exact .inr (.inl (by simp [compareFlags, h, h.le, hne h.ne]))
  · exact .inl (by simp [compareFlags, BitVec.toNat_inj.1 h])
  · exact .inr (.inr (by simp [compareFlags, h, h.le, hne h.ne']))

theorem compareFlags_count_true (va vb : Byte) :
    [(compareFlags va vb).e, (compareFlags va vb).l, (compareFlags va vb).g].count true = 1 := by
  rcases compareFlags_cases va vb with h | h | h <;> rw [h] <;> rfl

theorem exec_compare_of_lt {a b : Byte} (s : State) (ha : a.toNat < 8) (hb : b.toNat < 8) :
    exec (.compare a b) s = .next
      ((s.setFlags (compareFlags (s.getReg ⟨a.toNat, ha⟩) (s.getReg ⟨b.toNat, hb⟩))).advance 2) := by
  rcases exec_compare_cases a b s with ⟨_, _, e⟩ | ⟨hge, _⟩ | ⟨_, hge, _⟩
  · exact e
  · omega
  · omega

/-- Settles O29: COMPARE of two good indices completes with the comparator's flags, whose three bits are the three order
relations. -/
theorem compareIsTrichotomous : Obligations.CompareIsTrichotomous := by
  intro a b s ha hb
  exact ⟨_, exec_compare_of_lt s ha hb, compareFlags_count_true _ _, compareFlags_e_iff _ _, compareFlags_l_iff _ _,
    compareFlags_g_iff _ _⟩

end Sys2Proof.Machine
end

section
/-! SUPPORT. What reads the flags: the handlers' operations commute with a replacement of the flags register, and the
conditional jumps read `fl.E` (45_compare.md rule R120). -/

namespace Sys2Proof.Machine

/-! ### The handlers as an operation and its end -/

/-- An operation and, when it succeeds, the pc update that ends its handler (R81). -/
def thenAdvance (op : State → Except Trap State) (n : Nat) (s : State) : Except Trap State :=
  match op s with
  | .ok t => .ok (t.advance n)
  | .error t => .error t

theorem exec_multiply_eq (a b : Byte) (s : State) :
    exec (.multiply a b) s = finish s (thenAdvance (alu .mul a b) 2 s) := rfl

theorem exec_push_eq (a : Byte) (s : State) : exec (.push a) s = finish s (thenAdvance (push config a) 1 s) := rfl

theorem exec_pop_eq (a : Byte) (s : State) : exec (.pop a) s = finish s (thenAdvance (pop config a) 1 s) := rfl

/-- What the conditional jumps share: the transfer under a condition, the sequential pc without it (R124, R126). -/
def jumpWhen (c : Bool) (a : Byte) (s : State) : Except Trap State :=
  if c then takeJump a s else .ok (s.advance 1)

theorem exec_jump_eq (a : Byte) (s : State) : exec (.jump a) s = finish s (takeJump a s) := rfl

theorem exec_jumpIfEqual_eq (a : Byte) (s : State) :
    exec (.jumpIfEqual a) s = finish s (jumpWhen s.fl.e a s) := rfl

theorem exec_jumpIfNotEqual_eq (a : Byte) (s : State) :
    exec (.jumpIfNotEqual a) s = finish s (jumpWhen (!s.fl.e) a s) := by
  cases he : s.fl.e with
  | true => exact exec_jumpIfNotEqual_untaken a he
  | false => exact exec_jumpIfNotEqual_taken a he

/-! ### Operations that ignore the flags -/

/-- The operation neither reads nor writes the flags: to replace them before it is to replace them after it. -/
def IgnoresFlags (op : State → Except Trap State) : Prop :=
  ∀ s f, op (s.setFlags f) = (op s).map (·.setFlags f)

theorem IgnoresFlags.advance {op : State → Except Trap State} (h : IgnoresFlags op) (n : Nat) :
    IgnoresFlags (thenAdvance op n) := by
  intro s f
  unfold thenAdvance
  rw [h s f]
  cases op s <;> rfl

theorem IgnoresFlags.finish {op : State → Except Trap State} (h : IgnoresFlags op) {s t : State}
    (ht : finish s (op s) = .next t) (f : Flags) :
    finish (s.setFlags f) (op (s.setFlags f)) = .next (t.setFlags f) := by
  rw [h s f]
  rcases finish_cases ht with hop | ⟨k, hop, rfl⟩ <;> rw [hop] <;> rfl

theorem takeJump_ignoresFlags (a : Byte) : IgnoresFlags (takeJump a) := by
  intro s f
  unfold takeJump jumpTarget regRead
  cases regIndex a <;> rfl

/-- A condition that is fixed before the flags are replaced. -/
theorem jumpWhen_ignoresFlags (c : Bool) (a : Byte) : IgnoresFlags (jumpWhen c a) := by
  cases c with
  | false => exact fun s f => rfl
  | true => exact takeJump_ignoresFlags a

theorem registerPair_setFlags (a b : Byte) (s : State) (f : Flags) :
    registerPair a b (s.setFlags f) = registerPair a b s := rfl

theorem alu_mul_ignoresFlags (a b : Byte) : IgnoresFlags (alu .mul a b) := by
  intro s f
  simp only [alu, registerPair_setFlags]
  cases registerPair a b s <;> rfl

theorem memWrite_ignoresFlags (a : Nat) (v : Byte) : IgnoresFlags (memWrite a v) := by
  intro s f
  unfold memWrite
  split <;> rfl

theorem push_ignoresFlags (c : Config) (a : Byte) : IgnoresFlags (push c a) := by
  intro s f
  have haddr : pushAddress (s.setFlags f) = pushAddress s := rfl
  unfold push
  cases regIndex a with
  | error t => rfl
  | ok r =>
    simp only [haddr, State.setFlags_plim]
    split
    · rfl
    · exact memWrite_ignoresFlags _ _ (s.setSp (pushAddress s)) f

theorem pop_ignoresFlags (c : Config) (a : Byte) : IgnoresFlags (pop c a) := by
  intro s f
  have hread : memRead (popAddress (s.setFlags f)).toNat (s.setFlags f) = memRead (popAddress s).toNat s := rfl
  unfold pop
  cases regIndex a with
  | error t => rfl
  | ok r =>
    simp only [hread, State.sp_setFlags]
    split
    · rfl
    · cases memRead (popAddress s).toNat s <;> rfl

/-! ### Instructions -/

theorem fetch_setFlags (s : State) (f : Flags) : fetch (s.setFlags f) = fetch s := rfl

theorem exec_loadImmediate_setFlags {a b : Byte} {s t : State} (h : exec (.loadImmediate a b) s = .next t)
    (f : Flags) : exec (.loadImmediate a b) (s.setFlags f) = .next (t.setFlags f) := by
  rcases exec_loadImmediate_cases a b s with ⟨ha, e⟩ | ⟨ha, e⟩ <;> cases e.symm.trans h
  · exact exec_loadImmediate_of_lt b (s.setFlags f) ha
  · exact exec_loadImmediate_of_ge b (s.setFlags f) ha

theorem exec_printRegister_setFlags {a : Byte} {s t : State} (h : exec (.printRegister a) s = .next t) (f : Flags) :
    exec (.printRegister a) (s.setFlags f) = .next (t.setFlags f) := by
  rcases exec_printRegister_cases a s with ⟨ha, e⟩ | ⟨ha, e⟩ <;> cases e.symm.trans h
  · exact exec_printRegister_of_lt (s.setFlags f) ha
  · exact exec_printRegister_of_ge (s.setFlags f) ha

/-- COMPARE leaves flags of its own or, when its fault is taken, those it found. -/
theorem exec_compare_setFlags {a b : Byte} {s t : State} (h : exec (.compare a b) s = .next t) (f : Flags) :
    ∃ f', exec (.compare a b) (s.setFlags f) = .next (t.setFlags f') := by
  have hpair := registerPair_setFlags a b s f
  simp only [exec, execCompare, hpair] at h ⊢
  cases hp : registerPair a b s with
  | error k => rw [hp] at h; cases h; exact ⟨f, rfl⟩
  | ok v => rw [hp] at h; cases h; exact ⟨_, rfl⟩

/-- R120: an instruction runs alike whatever the flags, so long as a conditional jump sees the same `fl.E`. -/
theorem exec_setFlags {i : Instr} {s t : State} {f : Flags} (h : exec i s = .next t)
    (hi : s.fl.e = f.e ∨ ∀ a, i ≠ .jumpIfEqual a ∧ i ≠ .jumpIfNotEqual a) :
    ∃ f', exec i (s.setFlags f) = .next (t.setFlags f') := by
  cases i with
  | halt => cases h; exact ⟨f, rfl⟩
  | loadImmediate a b => exact ⟨f, exec_loadImmediate_setFlags h f⟩
  | printRegister a => exact ⟨f, exec_printRegister_setFlags h f⟩
  | multiply a b =>
    rw [exec_multiply_eq] at h ⊢
    exact ⟨f, ((alu_mul_ignoresFlags a b).advance 2).finish h f⟩
  | push a =>
    rw [exec_push_eq] at h ⊢
    exact ⟨f, ((push_ignoresFlags config a).advance 1).finish h f⟩
  | pop a =>
    rw [exec_pop_eq] at h ⊢
    exact ⟨f, ((pop_ignoresFlags config a).advance 1).finish h f⟩
  | compare a b => exact exec_compare_setFlags h f
  | jump a =>
    rw [exec_jump_eq] at h ⊢
    exact ⟨f, (takeJump_ignoresFlags a).finish h f⟩
  | jumpIfEqual a =>
    have hf : s.fl.e = f.e := hi.resolve_right fun hne => (hne a).1 rfl
    rw [exec_jumpIfEqual_eq] at h ⊢
    rw [State.setFlags_fl, ← hf]
    exact ⟨f, (jumpWhen_ignoresFlags _ a).finish h f⟩
  | jumpIfNotEqual a =>
    have hf : s.fl.e = f.e := hi.resolve_right fun hne => (hne a).2 rfl
    rw [exec_jumpIfNotEqual_eq] at h ⊢
    rw [State.setFlags_fl, ← hf]
    exact ⟨f, (jumpWhen_ignoresFlags _ a).finish h f⟩

/-- A COMPARE that completes leaves the same flags whatever they were. -/
theorem exec_compare_flags_eq {a b : Byte} {s t u : State} {f : Flags} (ha : a.toNat < 8) (hb : b.toNat < 8)
    (ht : exec (.compare a b) s = .next t) (hu : exec (.compare a b) (s.setFlags f) = .next u) : u.fl = t.fl := by
  cases (exec_compare_of_lt s ha hb).symm.trans ht
  cases (exec_compare_of_lt (s.setFlags f) ha hb).symm.trans hu
  rfl

/-- Settles O46: the second state is the first with its flags replaced, so each clause is the rule for replacing them. -/
theorem onlyEqualIsEverRead : Obligations.OnlyEqualIsEverRead := by
  intro s f g
  refine ⟨(fetch_setFlags s f).trans (fetch_setFlags s g).symm, ?_⟩
  intro i t u ht hu
  constructor
  · intro hi
    obtain ⟨f', e⟩ := exec_setFlags (s := s.setFlags f) (f := g) ht hi
    cases e.symm.trans hu
    rfl
  · rintro a b rfl ha hb
    exact exec_compare_flags_eq (s := s.setFlags f) (f := g) ha hb ht hu

end Sys2Proof.Machine
end

section
/-! SUPPORT. The two sides of the jumps' register check, and the next pc as a number (46_control_flow.md rules R121 to
R125). -/

namespace Sys2Proof.Machine

theorem exec_jump_of_lt {a : Byte} (s : State) (h : a.toNat < 8) :
    exec (.jump a) s = .next (s.jumpTo ((s.getReg ⟨a.toNat, h⟩).setWidth 9)) := by
  rcases exec_jump_cases a s with ⟨_, e⟩ | ⟨hge, _⟩
  · exact e
  · omega

theorem exec_jump_of_ge {a : Byte} (s : State) (h : 8 ≤ a.toNat) :
    exec (.jump a) s = .next (s.takeFault (Trap.register a)) := by
  rcases exec_jump_cases a s with ⟨hlt, _⟩ | ⟨_, e⟩
  · omega
  · exact e

/-- Zero-extension keeps the number: a jump's target is the register's value (R121). -/
theorem State.jumpTo_setWidth_pc_toNat (s : State) (v : Byte) : (s.jumpTo (v.setWidth 9)).pc.toNat = v.toNat := by
  rw [State.jumpTo_pc]
  exact BitVec.toNat_setWidth_of_le (by decide)

/-- The sequential pc does not wrap where it fits in 9 bits. -/
theorem State.advance_pc_toNat {s : State} {n : Nat} (h : s.pc.toNat + (1 + n) < 512) :
    (s.advance n).pc.toNat = s.pc.toNat + (1 + n) := by
  rw [State.advance_pc, BitVec.toNat_add, BitVec.toNat_ofNat, Nat.add_mod_mod, Nat.mod_eq_of_lt h]

/-- Settles O30: with `fl.E` set the instruction is JUMP, on either side of the register check; with it clear it moves
past its own two bytes. -/
theorem jumpIfEqualTransfersIffEqual : Obligations.JumpIfEqualTransfersIffEqual := by
  intro a s
  refine ⟨?_, ?_, ?_⟩
  · intro he h
    exact ⟨_, (exec_jumpIfEqual_taken a he).trans (exec_jump_of_lt s h), State.jumpTo_setWidth_pc_toNat s _⟩
  · intro he h
    exact ⟨_, (exec_jumpIfEqual_taken a he).trans (exec_jump_of_ge s h), State.takeFault_state s _,
      State.takeFault_pc s _⟩
  · intro he hpc
    exact ⟨_, exec_jumpIfEqual_untaken a he, State.advance_pc_toNat (by omega)⟩

end Sys2Proof.Machine
end

section
/-! SUPPORT. What fault entry leaves unchanged, and that an instruction other than HALT leaves Running only by it
(60_exceptions.md rule R140). -/

namespace Sys2Proof.Machine

theorem State.takeFault_eq_faulted (s : State) (k : Trap) : s.takeFault k = Spec.faulted s k.kind k.info := rfl

theorem takeFault_keepsControl (s : State) (k : Trap) : Spec.keepsControl s (s.takeFault k) :=
  .inr ⟨k.kind, k.info, s.takeFault_eq_faulted k⟩

theorem exec_jump_keepsControl (a : Byte) (s : State) : ∃ t, exec (.jump a) s = .next t ∧ Spec.keepsControl s t := by
  rcases exec_jump_cases a s with ⟨_, e⟩ | ⟨_, e⟩
  · exact ⟨_, e, .inl ⟨rfl, rfl⟩⟩
  · exact ⟨_, e, takeFault_keepsControl s _⟩

theorem exec_conditionalJump_keepsControl {i : Instr} (a : Byte) (s : State)
    (hi : i = .jumpIfEqual a ∨ i = .jumpIfNotEqual a) : ∃ t, exec i s = .next t ∧ Spec.keepsControl s t := by
  rcases exec_conditionalJump_cases a s hi with e | e
  · exact e ▸ exec_jump_keepsControl a s
  · exact ⟨_, e, .inl ⟨rfl, rfl⟩⟩

/-- Every instruction but HALT completes with `state` and the fault record as they were, or ends in the fault entry. -/
theorem exec_keepsControl {i : Instr} (s : State) (hi : i ≠ .halt) :
    ∃ t, exec i s = .next t ∧ Spec.keepsControl s t := by
  cases i with
  | halt => exact absurd rfl hi
  | loadImmediate a b =>
    rcases exec_loadImmediate_cases a b s with ⟨_, e⟩ | ⟨_, e⟩
    · exact ⟨_, e, .inl ⟨rfl, rfl⟩⟩
    · exact ⟨_, e, takeFault_keepsControl s _⟩
  | printRegister a =>
    rcases exec_printRegister_cases a s with ⟨_, e⟩ | ⟨_, e⟩
    · exact ⟨_, e, .inl ⟨rfl, rfl⟩⟩
    · exact ⟨_, e, takeFault_keepsControl s _⟩
  | multiply a b =>
    rcases exec_multiply_cases a b s with ⟨_, _, e⟩ | ⟨_, e⟩ | ⟨_, _, e⟩
    · exact ⟨_, e, .inl ⟨rfl, rfl⟩⟩
    · exact ⟨_, e, takeFault_keepsControl s _⟩
    · exact ⟨_, e, takeFault_keepsControl s _⟩
  | push a =>
    rcases exec_push_cases a s with ⟨_, _, e⟩ | ⟨_, e⟩ | ⟨_, _, e⟩
    · exact ⟨_, e, .inl ⟨rfl, rfl⟩⟩
    · exact ⟨_, e, takeFault_keepsControl s _⟩
    · exact ⟨_, e, takeFault_keepsControl s _⟩
  | pop a =>
    rcases exec_pop_cases a s with ⟨_, _, e⟩ | ⟨_, e⟩ | ⟨_, _, e⟩
    · exact ⟨_, e, .inl ⟨rfl, rfl⟩⟩
    · exact ⟨_, e, takeFault_keepsControl s _⟩
    · exact ⟨_, e, takeFault_keepsControl s _⟩
  | compare a b =>
    rcases exec_compare_cases a b s with ⟨_, _, e⟩ | ⟨_, e⟩ | ⟨_, _, e⟩
    · exact ⟨_, e, .inl ⟨rfl, rfl⟩⟩
    · exact ⟨_, e, takeFault_keepsControl s _⟩
    · exact ⟨_, e, takeFault_keepsControl s _⟩
  | jump a => exact exec_jump_keepsControl a s
  | jumpIfEqual a => exact exec_conditionalJump_keepsControl a s (.inl rfl)
  | jumpIfNotEqual a => exact exec_conditionalJump_keepsControl a s (.inr rfl)

theorem keepsControl_of_exec {i : Instr} {s t : State} (h : exec i s = .next t) (hi : i ≠ .halt) :
    Spec.keepsControl s t := by
  obtain ⟨u, hu, hkeep⟩ := exec_keepsControl s hi
  cases hu.symm.trans h
  exact hkeep

/-- An instruction that takes the machine from Running to Faulted did so by the fault entry: HALT ends in Halted, and a
completed instruction leaves the state Running. -/
theorem faulted_of_exec_faults {i : Instr} {s t : State} (hs : s.state = .running) (h : exec i s = .next t)
    (ht : t.state = .faulted) : ∃ kind info, t = Spec.faulted s kind info := by
  by_cases hi : i = .halt
  · subst hi
    cases (exec_halt s).symm.trans h
    cases ht
  · rcases keepsControl_of_exec h hi with ⟨hstate, -⟩ | hentry
    · cases ht.symm.trans (hstate.trans hs)
    · exact hentry

theorem faulted_of_step_faults {s t : State} (hs : s.state = .running) (h : step s = .next t)
    (ht : t.state = .faulted) : ∃ kind info, t = Spec.faulted s kind info := by
  rcases step_cases h with ⟨hne, -⟩ | ⟨-, k, -, rfl⟩ | ⟨-, i, -, he⟩
  · exact absurd hs hne
  · exact ⟨k.kind, k.info, s.takeFault_eq_faulted k⟩
  · exact faulted_of_exec_faults hs he ht

/-- Settles O12: the inversion of a step, where a fetch fault is the entry itself and an instruction reaches Faulted
only by it. -/
theorem faultEntryChangesNothingElse : Obligations.FaultEntryChangesNothingElse := by
  constructor
  · intro s t
    exact faulted_of_step_faults
  · intro s k
    rw [finish_error, State.takeFault_eq_faulted]

end Sys2Proof.Machine
end

section
/-! SUPPORT. The instruction a table entry makes of a source of bytes, and by it the decoder and the encoder as each
other's inverse (30_encoding.md rules R59 to R66). -/

namespace Sys2Proof

/-- The instruction an entry makes when byte `k` of the instruction is `byte k` (R59). -/
def Entry.instr (e : Entry) (byte : Nat → Byte) : Instr :=
  match e with
  | .noOperand i => i
  | .oneOperand mk => mk (byte 1)
  | .twoOperands mk => mk (byte 1) (byte 2)

/-- The bytes a source answers; 0 where it answers none. -/
def bytesOf {ε : Type} (readAt : Nat → Except ε Byte) (k : Nat) : Byte :=
  match readAt k with
  | .ok b => b
  | .error _ => 0

/-! ### The dispatch table -/

variable {c : Config} {op : Byte} {e : Entry}

theorem mem_dispatchTable_of_lookupOpcode (h : lookupOpcode c op = some e) : (op, e) ∈ dispatchTable c := by
  obtain ⟨front, back, htable, -⟩ := List.lookup_eq_some_iff.1 h
  rw [htable]
  exact List.mem_append_right _ (List.mem_cons_self ..)

/-- The table is a function when its ten opcode bytes are distinct (R66). -/
theorem lookupOpcode_of_mem (hc : c.wellFormed) (h : (op, e) ∈ dispatchTable c) : lookupOpcode c op = some e := by
  obtain ⟨front, back, htable⟩ := List.append_of_mem h
  have hkeys : c.opcodes = (front ++ (op, e) :: back).map Prod.fst := htable ▸ rfl
  rw [Config.wellFormed, hkeys, List.map_append, List.nodup_append] at hc
  obtain ⟨-, -, hne⟩ := hc
  refine List.lookup_eq_some_iff.2 ⟨front, back, htable, fun p hp => bne_iff_ne.2 ?_⟩
  exact (hne p.1 (List.mem_map_of_mem hp) op (List.mem_cons_self ..)).symm

theorem mem_dispatchTable_iff : (op, e) ∈ dispatchTable c ↔
    (op = c.opcHalt ∧ e = .noOperand .halt) ∨
    (op = c.opcLoadImmediate ∧ e = .twoOperands .loadImmediate) ∨
    (op = c.opcPrintRegister ∧ e = .oneOperand .printRegister) ∨
    (op = c.opcMultiply ∧ e = .twoOperands .multiply) ∨
    (op = c.opcPush ∧ e = .oneOperand .push) ∨
    (op = c.opcPop ∧ e = .oneOperand .pop) ∨
    (op = c.opcCompare ∧ e = .twoOperands .compare) ∨
    (op = c.opcJump ∧ e = .oneOperand .jump) ∨
    (op = c.opcJumpIfEqual ∧ e = .oneOperand .jumpIfEqual) ∨
    (op = c.opcJumpIfNotEqual ∧ e = .oneOperand .jumpIfNotEqual) := by
  simp [dispatchTable]

/-- An entry's instruction has the entry's operand count, and its encoding is the opcode byte and the bytes it was made
of. -/
theorem Entry.instr_of_mem {byte : Nat → Byte} (h : (byte 0, e) ∈ dispatchTable c) :
    (e.instr byte).operandCount = e.operandCount ∧
      encodeWith c (e.instr byte) = (List.range (e.operandCount + 1)).map byte := by
  rcases mem_dispatchTable_iff.1 h with ⟨h0, rfl⟩ | ⟨h0, rfl⟩ | ⟨h0, rfl⟩ | ⟨h0, rfl⟩ | ⟨h0, rfl⟩ | ⟨h0, rfl⟩ |
    ⟨h0, rfl⟩ | ⟨h0, rfl⟩ | ⟨h0, rfl⟩ | ⟨h0, rfl⟩ <;> exact ⟨rfl, congrArg (· :: _) h0.symm⟩

/-- The table's entry of an instruction. -/
def Instr.entry : Instr → Entry
  | .halt => .noOperand .halt
  | .loadImmediate _ _ => .twoOperands .loadImmediate
  | .printRegister _ => .oneOperand .printRegister
  | .multiply _ _ => .twoOperands .multiply
  | .push _ => .oneOperand .push
  | .pop _ => .oneOperand .pop
  | .compare _ _ => .twoOperands .compare
  | .jump _ => .oneOperand .jump
  | .jumpIfEqual _ => .oneOperand .jumpIfEqual
  | .jumpIfNotEqual _ => .oneOperand .jumpIfNotEqual

/-- Byte `k` of an instruction's encoding. -/
def encodedByte (c : Config) (i : Instr) (k : Nat) : Byte := (encodeWith c i).getD k 0

/-- Every instruction is what its entry makes of the bytes of its encoding. -/
theorem Instr.entry_instr (c : Config) (i : Instr) : i.entry.instr (encodedByte c i) = i := by
  cases i <;> rfl

theorem Instr.entry_mem (c : Config) (i : Instr) : (encodedByte c i 0, i.entry) ∈ dispatchTable c := by
  cases i <;> simp [encodedByte, encodeWith, Instr.entry, dispatchTable]

theorem Instr.entry_operandCount (i : Instr) : i.entry.operandCount = i.operandCount := by
  cases i <;> rfl

theorem encodeWith_eq_map_encodedByte (c : Config) (i : Instr) :
    encodeWith c i = (List.range i.length).map (encodedByte c i) := by
  cases i <;> rfl

/-! ### The decoder -/

variable {ε : Type} {readAt : Nat → Except ε Byte} {unknown : Byte → ε}

theorem eq_ok_bytesOf {k : Nat} {b : Byte} (h : readAt k = .ok b) : readAt k = .ok (bytesOf readAt k) := by
  simp [bytesOf, h]

/-- Where the opcode byte is in the table and the entry's operand bytes are there, the decoder succeeds. -/
theorem decodeFrom_of_bytes {byte : Nat → Byte} (hl : lookupOpcode c (byte 0) = some e)
    (hb : ∀ k ≤ e.operandCount, readAt k = .ok (byte k)) :
    decodeFrom c readAt unknown = .ok (e.instr byte) := by
  have h0 := hb 0 (Nat.zero_le _)
  cases e with
  | noOperand i => exact decodeFrom_noOperand h0 hl
  | oneOperand mk => exact decodeFrom_oneOperand h0 hl (hb 1 le_rfl)
  | twoOperands mk => exact decodeFrom_twoOperands h0 hl (hb 1 one_le_two) (hb 2 le_rfl)

/-- The decoder succeeds nowhere else. -/
theorem bytes_of_decodeFrom {i : Instr} (h : decodeFrom c readAt unknown = .ok i) :
    ∃ e, lookupOpcode c (bytesOf readAt 0) = some e ∧
      (∀ k ≤ e.operandCount, readAt k = .ok (bytesOf readAt k)) ∧ i = e.instr (bytesOf readAt) := by
  unfold decodeFrom at h
  split at h
  · cases h
  next op h0 =>
    have hop : bytesOf readAt 0 = op := by simp [bytesOf, h0]
    rw [hop]
    split at h
    · cases h
    next i' hl =>
      cases h
      exact ⟨_, hl, fun k hk => Nat.le_zero.1 hk ▸ eq_ok_bytesOf h0, rfl⟩
    next mk hl =>
      split at h
      · cases h
      next a h1 =>
        cases h
        refine ⟨_, hl, fun k hk => ?_, by simp [Entry.instr, bytesOf, h1]⟩
        have hk : k ≤ 1 := hk
        interval_cases k
        · exact eq_ok_bytesOf h0
        · exact eq_ok_bytesOf h1
    next mk hl =>
      split at h
      · cases h
      next a h1 =>
        split at h
        · cases h
        next b h2 =>
          cases h
          refine ⟨_, hl, fun k hk => ?_, by simp [Entry.instr, bytesOf, h1, h2]⟩
          have hk : k ≤ 2 := hk
          interval_cases k
          · exact eq_ok_bytesOf h0
          · exact eq_ok_bytesOf h1
          · exact eq_ok_bytesOf h2

theorem byteAt_eq_ok_iff {bytes : List Byte} {k : Nat} {b : Byte} : byteAt bytes k = .ok b ↔ bytes[k]? = some b := by
  unfold byteAt
  cases bytes[k]? <;> simp

/-- Settles O1: the instruction's entry makes it from its own encoding, distinct opcodes make the lookup find that
entry, and the list begins with exactly those bytes. -/
theorem decodeOfEncodeIsIdentity : Obligations.DecodeOfEncodeIsIdentity := by
  intro c i rest hc _
  have henc := encodeWith_eq_map_encodedByte c i
  have hbytes : ∀ k ≤ i.entry.operandCount, byteAt (encodeWith c i ++ rest) k = .ok (encodedByte c i k) := by
    intro k hk
    have hk : k < i.length := by rw [Instr.length, ← i.entry_operandCount]; omega
    rw [byteAt_eq_ok_iff, henc, List.getElem?_append_left (by simpa using hk)]
    simp [hk]
  have hdec : decodeFrom c (byteAt (encodeWith c i ++ rest)) .unknownOpcode = .ok i :=
    (decodeFrom_of_bytes (lookupOpcode_of_mem hc (i.entry_mem c)) hbytes).trans (congrArg Except.ok (i.entry_instr c))
  have hdrop : (encodeWith c i ++ rest).drop i.length = rest := List.drop_left' (by simp [henc])
  simp only [decodeWith, hdec, hdrop]

/-- Settles O2: the decoder took the instruction's bytes from the head of the list, and they are its encoding. -/
theorem encodeOfDecodeIsIdentity : Obligations.EncodeOfDecodeIsIdentity := by
  intro c bytes rest i h
  unfold decodeWith at h
  split at h
  next i' hdec =>
    cases h
    obtain ⟨e, hl, hb, rfl⟩ := bytes_of_decodeFrom hdec
    obtain ⟨hcount, henc⟩ := Entry.instr_of_mem (mem_dispatchTable_of_lookupOpcode hl)
    have hhead : encodeWith c (e.instr (bytesOf (byteAt bytes))) = bytes.take (e.operandCount + 1) := by
      rw [henc]
      refine List.ext_getElem? fun k => ?_
      by_cases hk : k < e.operandCount + 1
      · simp [hk, byteAt_eq_ok_iff.1 (hb k (Nat.le_of_lt_succ hk))]
      · simp [hk]
    rw [hhead, Instr.length, hcount, Nat.add_comm 1, List.take_append_drop]
  · cases h

end Sys2Proof
end

section
/-! SUPPORT. What an instruction does when it raises nothing, as one relation, and that an instruction either does that
or takes the first fault of its list (60_exceptions.md sections 2 and 3). -/

namespace Sys2Proof.Machine

/-- The instruction passes its checks in the first state and leaves the second. -/
inductive Completes : Instr → State → State → Prop
  | halt {s : State} : Completes .halt s (s.advance 0).halt
  | loadImmediate {a b : Byte} {s : State} (h : a.toNat < 8) :
      Completes (.loadImmediate a b) s ((s.setReg ⟨a.toNat, h⟩ b).advance 2)
  | printRegister {a : Byte} {s : State} (h : a.toNat < 8) :
      Completes (.printRegister a) s ((s.emit ((s.getReg ⟨a.toNat, h⟩).setWidth 16)).advance 1)
  | multiply {a b : Byte} {s : State} (ha : a.toNat < 8) (hb : b.toNat < 8) :
      Completes (.multiply a b) s ((s.emit (product (s.getReg ⟨a.toNat, ha⟩) (s.getReg ⟨b.toNat, hb⟩))).advance 2)
  | push {a : Byte} {s : State} (h : a.toNat < 8) (hlimit : s.plim.toNat ≤ (pushAddress s).toNat) :
      Completes (.push a) s (((s.setSp (pushAddress s)).setMem (s.mem.write (pushAddress s).toNat
        ((s.setSp (pushAddress s)).getReg ⟨a.toNat, h⟩))).advance 1)
  | pop {a : Byte} {s : State} (h : a.toNat < 8) (hlimit : s.sp.toNat < Config.spInit.toNat) :
      Completes (.pop a) s (((s.setReg ⟨a.toNat, h⟩ (s.mem.read s.sp.toNat)).setSp
        ((s.setReg ⟨a.toNat, h⟩ (s.mem.read s.sp.toNat)).sp + 1)).advance 1)
  | compare {a b : Byte} {s : State} (ha : a.toNat < 8) (hb : b.toNat < 8) :
      Completes (.compare a b) s
        ((s.setFlags (compareFlags (s.getReg ⟨a.toNat, ha⟩) (s.getReg ⟨b.toNat, hb⟩))).advance 2)
  | taken {i : Instr} {a : Byte} {s : State} (hi : Spec.takenJump i s = some a) (h : a.toNat < 8) :
      Completes i s (s.jumpTo ((s.getReg ⟨a.toNat, h⟩).setWidth 9))
  | untaken {i : Instr} {a : Byte} {s : State} (hi : i = .jumpIfEqual a ∨ i = .jumpIfNotEqual a)
      (hno : Spec.takenJump i s = none) : Completes i s (s.advance 1)

/-! ### An instruction completes or takes its fault -/

theorem exec_multiply_of_lt {a b : Byte} (s : State) (ha : a.toNat < 8) (hb : b.toNat < 8) :
    exec (.multiply a b) s =
      .next ((s.emit (product (s.getReg ⟨a.toNat, ha⟩) (s.getReg ⟨b.toNat, hb⟩))).advance 2) := by
  rcases exec_multiply_cases a b s with ⟨_, _, e⟩ | ⟨hge, _⟩ | ⟨_, hge, _⟩
  · exact e
  · omega
  · omega

theorem exec_push_of_le {a : Byte} (s : State) (h : a.toNat < 8) (hlimit : s.plim.toNat ≤ (pushAddress s).toNat) :
    exec (.push a) s = .next (((s.setSp (pushAddress s)).setMem (s.mem.write (pushAddress s).toNat
      ((s.setSp (pushAddress s)).getReg ⟨a.toNat, h⟩))).advance 1) := by
  rcases exec_push_cases a s with ⟨_, _, e⟩ | ⟨hge, _⟩ | ⟨_, hlt, _⟩
  · exact e
  · omega
  · omega

theorem exec_pop_of_lt {a : Byte} (s : State) (h : a.toNat < 8) (hlimit : s.sp.toNat < Config.spInit.toNat) :
    exec (.pop a) s = .next (((s.setReg ⟨a.toNat, h⟩ (s.mem.read s.sp.toNat)).setSp
      ((s.setReg ⟨a.toNat, h⟩ (s.mem.read s.sp.toNat)).sp + 1)).advance 1) := by
  rcases exec_pop_cases a s with ⟨_, _, e⟩ | ⟨hge, _⟩ | ⟨_, hle, _⟩
  · exact e
  · omega
  · omega

/-- A taken conditional jump is JUMP (R124, R126). -/
theorem exec_of_takenJump {i : Instr} {a : Byte} {s : State} (hi : Spec.takenJump i s = some a) :
    exec i s = exec (.jump a) s := by
  cases i with
  | jump b => cases hi; rfl
  | jumpIfEqual b =>
    obtain ⟨he, rfl⟩ : s.fl.e = true ∧ b = a := by simpa [Spec.takenJump] using hi
    exact exec_jumpIfEqual_taken b he
  | jumpIfNotEqual b =>
    obtain ⟨he, rfl⟩ : s.fl.e = false ∧ b = a := by simpa [Spec.takenJump] using hi
    exact exec_jumpIfNotEqual_taken b he
  | _ => cases hi

theorem exec_of_untaken {i : Instr} {a : Byte} {s : State} (hi : i = .jumpIfEqual a ∨ i = .jumpIfNotEqual a)
    (hno : Spec.takenJump i s = none) : exec i s = .next (s.advance 1) := by
  rcases hi with rfl | rfl
  · exact exec_jumpIfEqual_untaken a (by simpa [Spec.takenJump] using hno)
  · exact exec_jumpIfNotEqual_untaken a (by simpa [Spec.takenJump] using hno)

theorem Completes.exec_eq {i : Instr} {s t : State} (h : Completes i s t) : exec i s = .next t := by
  cases h with
  | halt => exact exec_halt s
  | loadImmediate h => exact exec_loadImmediate_of_lt _ s h
  | printRegister h => exact exec_printRegister_of_lt s h
  | multiply ha hb => exact exec_multiply_of_lt s ha hb
  | push h hlimit => exact exec_push_of_le s h hlimit
  | pop h hlimit => exact exec_pop_of_lt s h hlimit
  | compare ha hb => exact exec_compare_of_lt s ha hb
  | taken hi h => exact (exec_of_takenJump hi).trans (exec_jump_of_lt s h)
  | untaken hi hno => exact exec_of_untaken hi hno

/-- The instruction takes the first fault of its list, or its list has none and it completes. -/
def FaultsOrCompletes (i : Instr) (s : State) : Prop :=
  (∃ k : Trap, Spec.handlerFault i s = some (k.kind, k.info) ∧ exec i s = .next (s.takeFault k)) ∨
  (Spec.handlerFault i s = none ∧ ∃ t, Completes i s t)

theorem FaultsOrCompletes.register {i : Instr} {s : State} {j : Byte}
    (hj : (Spec.operandsUsed i s).find? (fun j => decide (8 ≤ j.toNat)) = some j)
    (h : exec i s = .next (s.takeFault (Trap.register j))) : FaultsOrCompletes i s :=
  .inl ⟨Trap.register j, by simp only [Spec.handlerFault, hj]; rfl, h⟩

theorem FaultsOrCompletes.completes {i : Instr} {s t : State} (hno : Spec.handlerFault i s = none)
    (h : Completes i s t) : FaultsOrCompletes i s := .inr ⟨hno, t, h⟩

theorem operandsUsed_of_takenJump {i : Instr} {a : Byte} {s : State} (hi : Spec.takenJump i s = some a) :
    Spec.operandsUsed i s = [a] := by
  cases i <;> simp_all [Spec.takenJump, Spec.operandsUsed]

theorem operandsUsed_of_untaken {i : Instr} {a : Byte} {s : State} (hi : i = .jumpIfEqual a ∨ i = .jumpIfNotEqual a)
    (hno : Spec.takenJump i s = none) : Spec.operandsUsed i s = [] := by
  rcases hi with rfl | rfl <;> simp_all [Spec.takenJump, Spec.operandsUsed]

/-- An instruction other than PUSH and POP has no check but that of its register operands. -/
theorem handlerFault_eq_none {i : Instr} {s : State} (hpush : ∀ a, i ≠ .push a) (hpop : ∀ a, i ≠ .pop a)
    (hops : ∀ j ∈ Spec.operandsUsed i s, j.toNat < 8) : Spec.handlerFault i s = none := by
  have hfind : (Spec.operandsUsed i s).find? (fun j => decide (8 ≤ j.toNat)) = none :=
    List.find?_eq_none.2 fun j hj => by simpa using hops j hj
  unfold Spec.handlerFault
  rw [hfind]
  cases i with
  | push a => exact absurd rfl (hpush a)
  | pop a => exact absurd rfl (hpop a)
  | _ => rfl

theorem handlerFault_push {a : Byte} (s : State) (h : a.toNat < 8) : Spec.handlerFault (.push a) s =
    if (pushAddress s).toNat < s.plim.toNat then some (.stackOverflow, (pushAddress s).setWidth 9) else none := by
  simp [Spec.handlerFault, Spec.operandsUsed, h, pushAddress, State.sp, State.getReg, spIndex]

theorem handlerFault_pop {a : Byte} (s : State) (h : a.toNat < 8) : Spec.handlerFault (.pop a) s =
    if Config.spInit.toNat ≤ s.sp.toNat then some (.underflowFault, s.sp.setWidth 9) else none := by
  simp [Spec.handlerFault, Spec.operandsUsed, h, State.sp, State.getReg, spIndex]

theorem faultsOrCompletes_of_takenJump {i : Instr} {a : Byte} {s : State} (hi : Spec.takenJump i s = some a) :
    FaultsOrCompletes i s := by
  have hops := operandsUsed_of_takenJump hi
  rcases exec_jump_cases a s with ⟨h, _⟩ | ⟨h, e⟩
  · refine .completes (handlerFault_eq_none ?_ ?_ ?_) (.taken hi h)
    · rintro b rfl; cases hi
    · rintro b rfl; cases hi
    · simpa [hops] using h
  · exact .register (by simp [hops, h]) ((exec_of_takenJump hi).trans e)

theorem faultsOrCompletes_of_conditionalJump {i : Instr} {a : Byte} (s : State)
    (hi : i = .jumpIfEqual a ∨ i = .jumpIfNotEqual a) : FaultsOrCompletes i s := by
  cases htaken : Spec.takenJump i s with
  | some b => exact faultsOrCompletes_of_takenJump htaken
  | none =>
    refine .completes (handlerFault_eq_none ?_ ?_ ?_) (.untaken hi htaken)
    · rintro b rfl; simp at hi
    · rintro b rfl; simp at hi
    · simp [operandsUsed_of_untaken hi htaken]

/-- Every instruction, in every state. -/
theorem exec_faultsOrCompletes (i : Instr) (s : State) : FaultsOrCompletes i s := by
  cases i with
  | halt => exact .completes rfl .halt
  | loadImmediate a b =>
    rcases exec_loadImmediate_cases a b s with ⟨h, _⟩ | ⟨h, e⟩
    · exact .completes (handlerFault_eq_none nofun nofun (by simp [Spec.operandsUsed, h])) (.loadImmediate h)
    · exact .register (by simp [Spec.operandsUsed, h]) e
  | printRegister a =>
    rcases exec_printRegister_cases a s with ⟨h, _⟩ | ⟨h, e⟩
    · exact .completes (handlerFault_eq_none nofun nofun (by simp [Spec.operandsUsed, h])) (.printRegister h)
    · exact .register (by simp [Spec.operandsUsed, h]) e
  | multiply a b =>
    rcases exec_multiply_cases a b s with ⟨ha, hb, _⟩ | ⟨ha, e⟩ | ⟨ha, hb, e⟩
    · exact .completes (handlerFault_eq_none nofun nofun (by simp [Spec.operandsUsed, ha, hb])) (.multiply ha hb)
    · exact .register (by simp [Spec.operandsUsed, ha]) e
    · exact .register (by simp [Spec.operandsUsed, ha, hb]) e
  | push a =>
    rcases exec_push_cases a s with ⟨h, hl, _⟩ | ⟨h, e⟩ | ⟨h, hl, e⟩
    · exact .completes ((handlerFault_push s h).trans (if_neg hl.not_gt)) (.push h hl)
    · exact .register (by simp [Spec.operandsUsed, h]) e
    · exact .inl ⟨_, (handlerFault_push s h).trans (if_pos hl), e⟩
  | pop a =>
    rcases exec_pop_cases a s with ⟨h, hl, _⟩ | ⟨h, e⟩ | ⟨h, hl, e⟩
    · exact .completes ((handlerFault_pop s h).trans (if_neg hl.not_ge)) (.pop h hl)
    · exact .register (by simp [Spec.operandsUsed, h]) e
    · exact .inl ⟨_, (handlerFault_pop s h).trans (if_pos hl), e⟩
  | compare a b =>
    rcases exec_compare_cases a b s with ⟨ha, hb, _⟩ | ⟨ha, e⟩ | ⟨ha, hb, e⟩
    · exact .completes (handlerFault_eq_none nofun nofun (by simp [Spec.operandsUsed, ha, hb])) (.compare ha hb)
    · exact .register (by simp [Spec.operandsUsed, ha]) e
    · exact .register (by simp [Spec.operandsUsed, ha, hb]) e
  | jump a => exact faultsOrCompletes_of_takenJump rfl
  | jumpIfEqual a => exact faultsOrCompletes_of_conditionalJump s (.inl rfl)
  | jumpIfNotEqual a => exact faultsOrCompletes_of_conditionalJump s (.inr rfl)

theorem exec_of_handlerFault {i : Instr} {s : State} {kind : FaultKind} {info : Word9}
    (h : Spec.handlerFault i s = some (kind, info)) : exec i s = .next (Spec.faulted s kind info) := by
  rcases exec_faultsOrCompletes i s with ⟨k, hk, e⟩ | ⟨hno, -⟩
  · cases h.symm.trans hk
    exact e
  · cases h.symm.trans hno

theorem completes_of_no_handlerFault {i : Instr} {s : State} (h : Spec.handlerFault i s = none) :
    ∃ t, Completes i s t := by
  rcases exec_faultsOrCompletes i s with ⟨k, hk, -⟩ | ⟨-, ht⟩
  · cases h.symm.trans hk
  · exact ht

/-- If an instruction answers a next state, the first fault of its list was taken, or there is none and it completed. -/
theorem exec_cases {i : Instr} {s t : State} (h : exec i s = .next t) :
    (∃ k : Trap, Spec.handlerFault i s = some (k.kind, k.info) ∧ t = s.takeFault k) ∨
    (Spec.handlerFault i s = none ∧ Completes i s t) := by
  rcases exec_faultsOrCompletes i s with ⟨k, hk, e⟩ | ⟨hno, u, hu⟩
  · cases e.symm.trans h
    exact .inl ⟨k, hk, rfl⟩
  · cases hu.exec_eq.symm.trans h
    exact .inr ⟨hno, hu⟩

/-! ### What a completed instruction leaves -/

namespace Completes

variable {i : Instr} {s t : State}

theorem plim_eq (h : Completes i s t) : t.plim = s.plim := by cases h <;> rfl

theorem fault_eq (h : Completes i s t) : t.fault = s.fault := by cases h <;> rfl

theorem state_eq (h : Completes i s t) : t.state = if i = .halt then .halted else s.state := by
  cases h with
  | halt => rfl
  | taken hi _ => rw [if_neg (by rintro rfl; cases hi)]; rfl
  | untaken hi _ => rw [if_neg (by rintro rfl; simp at hi)]; rfl
  | _ => rfl

/-- Only PUSH stores, and only at the new SP, which the limit check keeps above the program. -/
theorem mem_cases (h : Completes i s t) :
    t.mem = s.mem ∨ ∃ a v, i = .push a ∧ s.plim.toNat ≤ (pushAddress s).toNat ∧
      t.mem = s.mem.write (pushAddress s).toNat v := by
  cases h with
  | push _ hlimit => exact .inr ⟨_, _, rfl, hlimit, rfl⟩
  | _ => exact .inl rfl

theorem x_eq (h : Completes i s t) (hi : Spec.onlyReads i = true) : t.x = s.x := by
  cases h with
  | loadImmediate _ => cases hi
  | push _ _ => cases hi
  | pop _ _ => cases hi
  | _ => rfl

/-- The pc is the taken jump's register, or moves past the instruction's bytes. -/
theorem pc_eq (h : Completes i s t) :
    match Spec.takenJump i s with
    | none => t.pc = s.pc + BitVec.ofNat 9 i.length
    | some a => ∃ h : a.toNat < 8, t.pc = s.x[a.toNat].setWidth 9 := by
  cases h with
  | taken hi h => rw [hi]; exact ⟨h, rfl⟩
  | untaken hi hno => rw [hno]; rcases hi with rfl | rfl <;> rfl
  | _ => rfl

end Completes

/-- Settles O11: the two outcomes of an instruction, and what a completed one leaves in `state` and the record. -/
theorem handlerFaultsAreExact : Obligations.HandlerFaultsAreExact := by
  intro i s
  cases hf : Spec.handlerFault i s with
  | some fault => exact exec_of_handlerFault hf
  | none =>
    obtain ⟨t, ht⟩ := completes_of_no_handlerFault hf
    exact ⟨t, ht.exec_eq, ht.fault_eq, ht.state_eq⟩

end Sys2Proof.Machine
end

section
/-! SUPPORT. The frame of each instruction: what it leaves unchanged, whether it completes or faults (41_halt.md to
46_control_flow.md; 60_exceptions.md rule R140). -/

namespace Sys2Proof.Machine

variable {i : Instr} {s t : State}

theorem plim_eq_of_exec (h : exec i s = .next t) : t.plim = s.plim := by
  rcases exec_cases h with ⟨k, -, rfl⟩ | ⟨-, hc⟩
  · exact State.takeFault_plim s k
  · exact hc.plim_eq

/-- Memory stays, or a PUSH stored one byte at the new SP, at or above `PLIM`. -/
theorem mem_cases_of_exec (h : exec i s = .next t) :
    t.mem = s.mem ∨ ∃ a v, i = .push a ∧ s.plim.toNat ≤ (pushAddress s).toNat ∧
      t.mem = s.mem.write (pushAddress s).toNat v := by
  rcases exec_cases h with ⟨k, -, rfl⟩ | ⟨-, hc⟩
  · exact .inl (State.takeFault_mem s k)
  · exact hc.mem_cases

theorem mem_eq_of_exec (h : exec i s = .next t) (hi : ∀ a, i ≠ .push a) : t.mem = s.mem := by
  rcases mem_cases_of_exec h with hmem | ⟨a, -, rfl, -⟩
  · exact hmem
  · exact absurd rfl (hi a)

theorem x_eq_of_exec (h : exec i s = .next t) (hi : Spec.onlyReads i = true) : t.x = s.x := by
  rcases exec_cases h with ⟨k, -, rfl⟩ | ⟨-, hc⟩
  · exact State.takeFault_x s k
  · exact hc.x_eq hi

theorem keepsMemory_of_mem_eq (h : t.mem = s.mem) : Spec.keepsMemory s t := fun a => by rw [h]

/-- Settles O38: the frame of each field, and for the execution state the frame that holds of all but HALT. -/
theorem frameOfTheReadingInstructions : Obligations.FrameOfTheReadingInstructions := by
  intro i s t hi h
  have hmem : t.mem = s.mem := mem_eq_of_exec h (by rintro a rfl; cases hi)
  refine ⟨x_eq_of_exec h hi, keepsMemory_of_mem_eq hmem, plim_eq_of_exec h, fl_eq_of_exec h, out_eq_of_exec h,
    keepsControl_of_exec h, ?_⟩
  rintro rfl
  cases (exec_halt s).symm.trans h
  rfl

/-- Settles O39: the one register that LOAD-IMMEDIATE sets, and the frames of the other fields. -/
theorem frameOfLoadImmediate : Obligations.FrameOfLoadImmediate := by
  intro a b s t h
  refine ⟨?_, keepsMemory_of_mem_eq (mem_eq_of_exec h nofun), fl_eq_of_exec h nofun, plim_eq_of_exec h,
    out_eq_of_exec h rfl, keepsControl_of_exec h nofun⟩
  intro r hr hne
  rcases exec_loadImmediate_cases a b s with ⟨_, e⟩ | ⟨_, e⟩ <;> cases e.symm.trans h
  · simp [hne.symm]
  · rfl

/-- Settles O40: PUSH sets SP alone, stores at its address alone, and the frames of the other fields. -/
theorem frameOfPush : Obligations.FrameOfPush := by
  intro a s t h
  refine ⟨?_, ?_, fl_eq_of_exec h nofun, plim_eq_of_exec h, out_eq_of_exec h rfl, keepsControl_of_exec h nofun⟩
  · intro r hr hne
    rcases exec_push_cases a s with ⟨_, _, e⟩ | ⟨_, e⟩ | ⟨_, _, e⟩ <;> cases e.symm.trans h
    · simp [hne.symm]
    · rfl
    · rfl
  · rintro _ rfl b hb
    rcases mem_cases_of_exec h with hmem | ⟨_, v, -, -, hmem⟩
    · rw [hmem]
    · rw [hmem, Memory.read_write_of_ne _ v hb]

/-- Settles O41: the two registers that POP sets, and the frames of the other fields. -/
theorem frameOfPop : Obligations.FrameOfPop := by
  intro a s t h
  refine ⟨?_, keepsMemory_of_mem_eq (mem_eq_of_exec h nofun), fl_eq_of_exec h nofun, plim_eq_of_exec h,
    out_eq_of_exec h rfl, keepsControl_of_exec h nofun⟩
  intro r hr hne hne7
  rcases exec_pop_cases a s with ⟨_, _, e⟩ | ⟨_, e⟩ | ⟨_, _, e⟩ <;> cases e.symm.trans h
  · simp [hne.symm, hne7.symm]
  · rfl
  · rfl

end Sys2Proof.Machine
end

section
/-! SUPPORT. Each instruction's effect and faults, written out (41_halt.md, 43_alu.md to 46_control_flow.md). -/

namespace Sys2Proof.Machine

/-- A register operand of 8 or more is the fault that is taken when no operand before it is bad. -/
theorem exec_of_bad_operand {i : Instr} {s : State} {j : Byte}
    (hj : (Spec.operandsUsed i s).find? (fun j => decide (8 ≤ j.toNat)) = some j) :
    exec i s = .next (Spec.faulted s .registerFault (j.setWidth 9)) :=
  exec_of_handlerFault (by simp only [Spec.handlerFault, hj])

theorem State.getReg_setSp (s : State) (v : Byte) (a : Nat) (h : a < 8) :
    (s.setSp v).getReg ⟨a, h⟩ = if a = 7 then v else s.x[a] := by
  rw [State.setSp_eq, State.getReg_setReg]
  simp [Fin.ext_iff, spIndex, State.getReg, eq_comm]

/-- Settles O21: MULTIPLY with good indices, its product as a number, and its two bad operands. -/
theorem multiplyEmitsTheFullProduct : Obligations.MultiplyEmitsTheFullProduct := by
  intro a b s
  refine ⟨?_, ?_, ?_⟩
  · intro ha hb
    exact ⟨_, product_toNat _ _, exec_multiply_of_lt s ha hb⟩
  · intro ha
    exact exec_of_bad_operand (by simp [Spec.operandsUsed, ha])
  · intro ha hb
    exact exec_of_bad_operand (by simp [Spec.operandsUsed, ha, hb])

/-- Settles O22: PUSH above the limit, where the register is read after SP is set, and its two faults. -/
theorem pushStoresBelowTheStackPointer : Obligations.PushStoresBelowTheStackPointer := by
  intro a s
  refine ⟨?_, ?_, ?_⟩
  · intro h hlimit
    rw [exec_push_of_le s h hlimit, State.getReg_setSp]
    rfl
  · intro h
    exact exec_of_bad_operand (by simp [Spec.operandsUsed, h])
  · intro h hlimit
    exact exec_of_handlerFault ((handlerFault_push s h).trans (if_pos hlimit))

/-- Settles O23: POP below the empty-stack limit, where SP is incremented after the register is set, and its two
faults. -/
theorem popLoadsFromTheStackPointer : Obligations.PopLoadsFromTheStackPointer := by
  intro a s
  refine ⟨?_, ?_, ?_⟩
  · intro h hlimit
    rw [exec_pop_of_lt s h hlimit, State.sp_eq (s.setReg _ _), State.getReg_setReg]
    simp only [Fin.ext_iff, spIndex]
    rfl
  · intro h
    exact exec_of_bad_operand (by simp [Spec.operandsUsed, h])
  · intro h hlimit
    exact exec_of_handlerFault ((handlerFault_pop s h).trans (if_pos hlimit))

theorem compareFlags_eq_decide (va vb : Byte) : compareFlags va vb =
    ⟨decide (va.toNat = vb.toNat), decide (va.toNat < vb.toNat), decide (va.toNat > vb.toNat)⟩ := by
  have he : (compareFlags va vb).e = decide (va.toNat = vb.toNat) := by
    rw [Bool.eq_iff_iff, compareFlags_e_iff, decide_eq_true_iff]
  rw [← he]
  rfl

/-- Settles O24: COMPARE with good indices, its equal flag as a relation of numbers, and its two bad operands. -/
theorem compareSetsTheFlags : Obligations.CompareSetsTheFlags := by
  intro a b s
  refine ⟨?_, ?_, ?_⟩
  · intro ha hb
    rw [exec_compare_of_lt s ha hb, compareFlags_eq_decide]
    rfl
  · intro ha
    exact exec_of_bad_operand (by simp [Spec.operandsUsed, ha])
  · intro ha hb
    exact exec_of_bad_operand (by simp [Spec.operandsUsed, ha, hb])

/-- Settles O25: the two sides of JUMP's register check. -/
theorem jumpGoesToTheRegister : Obligations.JumpGoesToTheRegister := by
  intro a s
  constructor
  · intro h
    exact exec_jump_of_lt s h
  · intro h
    exact exec_jump_of_ge s h

/-- Settles O26: with `fl.E` set the instruction is JUMP, on either side of its check; with it clear, the advance. -/
theorem jumpIfEqualFollowsTheFlag : Obligations.JumpIfEqualFollowsTheFlag := by
  intro a s
  refine ⟨?_, ?_, ?_⟩
  · intro h he
    exact (exec_jumpIfEqual_taken a he).trans (exec_jump_of_lt s h)
  · intro he
    exact exec_jumpIfEqual_untaken a he
  · intro h he
    exact (exec_jumpIfEqual_taken a he).trans (exec_jump_of_ge s h)

/-- Settles O27: with `fl.E` clear the instruction is JUMP, on either side of its check; with it set, the advance. -/
theorem jumpIfNotEqualFollowsTheFlag : Obligations.JumpIfNotEqualFollowsTheFlag := by
  intro a s
  refine ⟨?_, ?_, ?_⟩
  · intro h he
    exact (exec_jumpIfNotEqual_taken a he).trans (exec_jump_of_lt s h)
  · intro he
    exact exec_jumpIfNotEqual_untaken a he
  · intro h he
    exact (exec_jumpIfNotEqual_taken a he).trans (exec_jump_of_ge s h)

/-- Settles O31: `fl.E` selects which of the two is JUMP; the reset flags have it clear. -/
theorem conditionalJumpsAreComplements : Obligations.ConditionalJumpsAreComplements := by
  intro a s h
  cases he : s.fl.e with
  | true =>
    refine ⟨_, _, (exec_jumpIfEqual_taken a he).trans (exec_jump_of_lt s h), exec_jumpIfNotEqual_untaken a he,
      .inl ⟨rfl, rfl⟩, fun hreset => ?_⟩
    rw [hreset] at he
    cases he
  | false =>
    exact ⟨_, _, exec_jumpIfEqual_untaken a he, (exec_jumpIfNotEqual_taken a he).trans (exec_jump_of_lt s h),
      .inr ⟨rfl, rfl⟩, fun _ => rfl⟩

/-- Settles O33: the ALU's two recognised selects on either side of the register checks, and any other select. -/
theorem aluOperations : Obligations.AluOperations := by
  intro a b s
  refine ⟨?_, ?_, fun name => rfl⟩
  · intro ha hb
    constructor
    · rcases alu_mul_cases a b s with ⟨_, _, e⟩ | ⟨hge, _⟩ | ⟨_, hge, _⟩
      · exact ⟨_, product_toNat _ _, e⟩
      · omega
      · omega
    · rcases alu_add_cases a b s with ⟨_, _, e⟩ | ⟨hge, _⟩ | ⟨_, hge, _⟩
      · exact ⟨_, BitVec.toNat_ofNat _ _, e⟩
      · omega
      · omega
  · intro sel hsel
    have hpair : ∀ k, registerPair a b s = .error k → alu sel a b s = .error k := by
      intro k hk
      rcases hsel with rfl | rfl <;> simp [alu, hk]
    rcases registerPair_cases a b s with ⟨ha, hb, _⟩ | ⟨ha, e⟩ | ⟨ha, hb, e⟩
    · exact ⟨fun hge => by omega, fun _ hge => by omega⟩
    · exact ⟨fun _ => hpair _ e, fun hlt => by omega⟩
    · exact ⟨fun hge => by omega, fun _ _ => hpair _ e⟩

end Sys2Proof.Machine
end

section
/-! SUPPORT. What the fetch unit answers, in its four cases (40_fetch_decode_cycle.md rules R77 to R79), and that it is
the decoder over the bytes ahead. -/

namespace Sys2Proof

theorem Entry.instr_congr {e : Entry} {f g : Nat → Byte} (h : ∀ k ≤ e.operandCount, f k = g k) :
    e.instr f = e.instr g := by
  cases e with
  | noOperand i => rfl
  | oneOperand mk => exact congrArg mk (h 1 le_rfl)
  | twoOperands mk => exact congrArg₂ mk (h 1 one_le_two) (h 2 le_rfl)

/-- The decoder reports the first byte that is not there, where the bytes end within the instruction. -/
theorem decodeFrom_missing {ε : Type} {c : Config} {readAt : Nat → Except ε Byte} {unknown : Byte → ε} {e : Entry}
    {byte : Nat → Byte} {err : ε} {n : Nat} (hn : 0 < n) (hb : ∀ k < n, readAt k = .ok (byte k))
    (hl : lookupOpcode c (byte 0) = some e) (hend : readAt n = .error err) (hcount : n ≤ e.operandCount) :
    decodeFrom c readAt unknown = .error err := by
  cases e with
  | noOperand i => exact absurd (hn.trans_le hcount) (lt_irrefl 0)
  | oneOperand mk =>
    obtain rfl : n = 1 := le_antisymm hcount hn
    exact decodeFrom_oneOperand_missing (hb 0 hn) hl hend
  | twoOperands mk =>
    have hcount : n ≤ 2 := hcount
    obtain rfl | rfl : n = 1 ∨ n = 2 := by omega
    · exact decodeFrom_twoOperands_first_missing (hb 0 hn) hl hend
    · exact decodeFrom_twoOperands_second_missing (hb 0 hn) hl (hb 1 one_lt_two) hend

theorem lookupOpcode_eq_none_iff {c : Config} {op : Byte} : lookupOpcode c op = none ↔ op ∉ c.opcodes := by
  have hkeys : c.opcodes = (dispatchTable c).map Prod.fst := rfl
  rw [lookupOpcode, List.lookup_eq_none_iff, hkeys, List.mem_map]
  constructor
  · rintro hne ⟨p, hp, rfl⟩
    exact bne_iff_ne.1 (hne p hp) rfl
  · intro hno p hp
    exact bne_iff_ne.2 fun h => hno ⟨p, hp, h.symm⟩

/-- The dispatch table's operand counts, as the statements write them out. -/
theorem operandCount_toNat (op : Byte) :
    Spec.operandCount op.toNat = (lookupOpcode config op).map Entry.operandCount := by
  cases hl : lookupOpcode config op with
  | some e =>
    rcases mem_dispatchTable_iff.1 (mem_dispatchTable_of_lookupOpcode hl) with ⟨rfl, rfl⟩ | ⟨rfl, rfl⟩ | ⟨rfl, rfl⟩ |
      ⟨rfl, rfl⟩ | ⟨rfl, rfl⟩ | ⟨rfl, rfl⟩ | ⟨rfl, rfl⟩ | ⟨rfl, rfl⟩ | ⟨rfl, rfl⟩ | ⟨rfl, rfl⟩ <;> rfl
  | none =>
    have hne := lookupOpcode_eq_none_iff.1 hl
    simp only [Config.opcodes, config, List.mem_cons, List.not_mem_nil, or_false, not_or, ← BitVec.toNat_inj,
      BitVec.reduceToNat] at hne
    simp [Spec.operandCount, hne]

end Sys2Proof

namespace Sys2Proof.Machine

/-- The byte at `pc + k`, the address not reduced. -/
def State.byteAhead (s : State) (k : Nat) : Byte := s.mem.read (s.pc.toNat + k)

theorem State.byteAhead_zero (s : State) : s.byteAhead 0 = s.mem.read s.pc.toNat := rfl

variable {s : State} {e : Entry}

theorem memRead_ahead {k : Nat} (h : s.pc.toNat + k ≤ 255) : memRead (s.pc.toNat + k) s = .ok (s.byteAhead k) :=
  memRead_of_lt s (Nat.lt_succ_of_le h)

theorem fetch_past_end (h : 256 ≤ s.pc.toNat) : fetch s = .error (Trap.address s.pc.toNat) :=
  decodeFrom_no_opcode (memRead_of_ge s h)

theorem fetch_of_unknown (hp : s.pc.toNat ≤ 255) (hl : lookupOpcode config (s.byteAhead 0) = none) :
    fetch s = .error (Trap.opcode (s.byteAhead 0)) :=
  decodeFrom_unknown (memRead_ahead hp) hl

theorem fetch_of_entry (hl : lookupOpcode config (s.byteAhead 0) = some e)
    (hn : s.pc.toNat + e.operandCount ≤ 255) : fetch s = .ok (e.instr s.byteAhead) :=
  decodeFrom_of_bytes hl fun _ hk => memRead_ahead (by omega)

theorem fetch_cases (s : State) :
    (256 ≤ s.pc.toNat ∧ fetch s = .error (Trap.address s.pc.toNat)) ∨
    (s.pc.toNat ≤ 255 ∧ lookupOpcode config (s.byteAhead 0) = none ∧
      fetch s = .error (Trap.opcode (s.byteAhead 0))) ∨
    (∃ e, s.pc.toNat ≤ 255 ∧ lookupOpcode config (s.byteAhead 0) = some e ∧ 255 < s.pc.toNat + e.operandCount ∧
      fetch s = .error (Trap.address 256)) ∨
    (∃ e, lookupOpcode config (s.byteAhead 0) = some e ∧ s.pc.toNat + e.operandCount ≤ 255 ∧
      fetch s = .ok (e.instr s.byteAhead)) := by
  rcases Nat.lt_or_ge 255 s.pc.toNat with hp | hp
  · exact .inl ⟨hp, fetch_past_end hp⟩
  cases hl : lookupOpcode config (s.byteAhead 0) with
  | none => exact .inr (.inl ⟨hp, rfl, fetch_of_unknown hp hl⟩)
  | some e =>
    rcases Nat.lt_or_ge 255 (s.pc.toNat + e.operandCount) with hn | hn
    · exact .inr (.inr (.inl ⟨e, hp, rfl, hn, fetch_of_operand_past_memory hp hl hn⟩))
    · exact .inr (.inr (.inr ⟨e, rfl, hn, fetch_of_entry hl hn⟩))

theorem fetch_eq_ok_iff {i : Instr} : fetch s = .ok i ↔
    ∃ e, lookupOpcode config (s.byteAhead 0) = some e ∧ s.pc.toNat + e.operandCount ≤ 255 ∧
      i = e.instr s.byteAhead := by
  constructor
  · intro h
    rcases fetch_cases s with ⟨-, hf⟩ | ⟨-, -, hf⟩ | ⟨e, -, -, -, hf⟩ | ⟨e, hl, hn, hf⟩ <;> cases hf.symm.trans h
    exact ⟨e, hl, hn, rfl⟩
  · rintro ⟨e, hl, hn, rfl⟩
    exact fetch_of_entry hl hn

/-- A fetched instruction lies within memory. -/
theorem fetch_within_memory {i : Instr} (h : fetch s = .ok i) : s.pc.toNat + i.operandCount ≤ 255 := by
  obtain ⟨e, hl, hn, rfl⟩ := fetch_eq_ok_iff.1 h
  rwa [(Entry.instr_of_mem (mem_dispatchTable_of_lookupOpcode hl)).1]

/-! ### The bytes ahead as a list -/

theorem byteAt_bytesAhead_of_le {k : Nat} (h : s.pc.toNat + k ≤ 255) :
    byteAt (Spec.bytesAhead s) k = .ok (s.byteAhead k) :=
  byteAt_eq_ok_iff.2 (by simp [Spec.bytesAhead, State.byteAhead, show k < 256 - s.pc.toNat by omega])

theorem byteAt_bytesAhead_of_gt {k : Nat} (h : 255 < s.pc.toNat + k) :
    byteAt (Spec.bytesAhead s) k = .error (.missingByte k) := by
  simp [byteAt, Spec.bytesAhead, show 256 - s.pc.toNat ≤ k by omega]

/-- Settles O5: in each of the four cases of the fetch the decoder over the bytes ahead answers the same. -/
theorem fetchIsDecodeOfTheBytesAhead : Obligations.FetchIsDecodeOfTheBytesAhead := by
  intro s hp
  unfold decode decodeWith
  rcases fetch_cases s with ⟨hge, hf⟩ | ⟨hle, hl, hf⟩ | ⟨e, hle, hl, hn, hf⟩ | ⟨e, hl, hn, hf⟩
  · have hpc : s.pc.toNat = 256 := le_antisymm hp hge
    rw [hf, decodeFrom_no_opcode (byteAt_bytesAhead_of_gt hge), hpc]
    rfl
  · rw [hf, decodeFrom_unknown (byteAt_bytesAhead_of_le hle) hl]
    rfl
  · have hbytes : ∀ k < 256 - s.pc.toNat, byteAt (Spec.bytesAhead s) k = .ok (s.byteAhead k) :=
      fun k hk => byteAt_bytesAhead_of_le (by omega)
    have hend := byteAt_bytesAhead_of_gt (s := s) (k := 256 - s.pc.toNat) (by omega)
    rw [hf, decodeFrom_missing (by omega) hbytes hl hend (by omega)]
    rfl
  · have hbytes : ∀ k ≤ e.operandCount, byteAt (Spec.bytesAhead s) k = .ok (s.byteAhead k) :=
      fun k hk => byteAt_bytesAhead_of_le (by omega)
    rw [hf, decodeFrom_of_bytes hl hbytes]

/-- Settles O7: the instruction is a function of the entry and of its own bytes, on which the two memories agree. -/
theorem fetchReadsOnlyTheInstructionsBytes : Obligations.FetchReadsOnlyTheInstructionsBytes := by
  intro s m i h hagree
  obtain ⟨e, hl, hn, rfl⟩ := fetch_eq_ok_iff.1 h
  rw [(Entry.instr_of_mem (mem_dispatchTable_of_lookupOpcode hl)).1] at hagree
  have hop : State.byteAhead { s with mem := m } 0 = s.byteAhead 0 := hagree 0 (Nat.zero_le _)
  exact fetch_eq_ok_iff.2 ⟨e, hop ▸ hl, hn, Entry.instr_congr fun k hk => (hagree k hk).symm⟩

/-- Settles O4: a byte without an operand count is not in the table, and the step takes the fetch's fault. -/
theorem unknownOpcodeFaults : Obligations.UnknownOpcodeFaults := by
  intro s hr hp hcount
  have hl : lookupOpcode config (s.byteAhead 0) = none := by
    simpa [State.byteAhead_zero, operandCount_toNat] using hcount
  rw [step_of_fetch_fault hr (fetch_of_unknown hp hl)]
  rfl

/-- Settles O6: the entry with that operand count either reaches past memory or is the instruction fetched. -/
theorem operandFetchStaysInMemory : Obligations.OperandFetchStaysInMemory := by
  intro s n hr hp hcount
  obtain ⟨e, hl, rfl⟩ : ∃ e, lookupOpcode config (s.byteAhead 0) = some e ∧ e.operandCount = n := by
    simpa [State.byteAhead_zero, operandCount_toNat] using hcount
  constructor
  · intro hn
    exact step_of_operand_past_memory hr hp hl hn
  · intro hn
    exact ⟨_, fetch_of_entry hl hn, (Entry.instr_of_mem (mem_dispatchTable_of_lookupOpcode hl)).2⟩

/-- Settles O8: what the bytes ahead decode to is what is fetched. -/
theorem stepRunsTheDecodedInstruction : Obligations.StepRunsTheDecodedInstruction := by
  intro s i rest hr hp hdec _
  have hfetch := fetchIsDecodeOfTheBytesAhead s (by omega)
  rw [hdec] at hfetch
  exact step_of_fetched hr hfetch

/-- Settles O18: HALT's arm, and at a HALT byte, which has no operands to reach past memory, the fetch of it. -/
theorem haltStopsAndAdvances : Obligations.HaltStopsAndAdvances := by
  refine ⟨exec_halt, ?_⟩
  intro s hr hp hop
  have hl : lookupOpcode config (s.byteAhead 0) = some (.noOperand .halt) := by
    rw [State.byteAhead_zero, hop]
    rfl
  have hf : fetch s = .ok .halt := fetch_of_entry hl hp
  exact ⟨_, (step_of_fetched hr hf).trans (exec_halt s), rfl, State.advance_pc_toNat (by omega), rfl, rfl, rfl, rfl⟩

/-- Settles O3: the decoder evaluated on the ten words. -/
theorem specWordsDecode : Obligations.SpecWordsDecode := by
  unfold Obligations.SpecWordsDecode
  decide

end Sys2Proof.Machine
end

section
/-! SUPPORT. The step function over plain numbers (`Spec.step`): its operations as the model's, one equation for each of
its cases, and with them that it is the model's step (40_fetch_decode_cycle.md section 3). -/

namespace Sys2Proof.Machine

/-! ### The numbers behind the operations -/

theorem specReg_eq (s : State) {i : Nat} (h : i < 8) : Spec.reg s i = (s.getReg ⟨i, h⟩).toNat := by
  simp [Spec.reg, State.getReg, h]

theorem specSetReg_eq (s : State) {i : Nat} (h : i < 8) (v : Byte) :
    Spec.setReg s i v.toNat = s.setReg ⟨i, h⟩ v := by
  have hx : s.x.setIfInBounds i v = s.x.set i v := by
    ext j hj
    simp [Vector.getElem_setIfInBounds, Vector.getElem_set]
  rw [Spec.setReg, BitVec.ofNat_toNat, BitVec.setWidth_eq, hx]
  rfl

theorem specSetReg_succ_eq (s : State) {i : Nat} (h : i < 8) (v : Byte) :
    Spec.setReg s i (v.toNat + 1) = s.setReg ⟨i, h⟩ (v + 1) := by
  rw [← specSetReg_eq s h, Spec.setReg, Spec.setReg, BitVec.ofNat_add, BitVec.ofNat_toNat, BitVec.ofNat_toNat,
    BitVec.setWidth_eq, BitVec.setWidth_eq]
  rfl

theorem specEmit_eq (s : State) (v : Byte) : Spec.emit s v.toNat = s.emit (v.setWidth 16) := by
  rw [Spec.emit, BitVec.ofNat_toNat]
  rfl

theorem specEmit_mul_eq (s : State) (va vb : Byte) : Spec.emit s (va.toNat * vb.toNat) = s.emit (product va vb) := by
  rw [← product_toNat, Spec.emit, BitVec.ofNat_toNat, BitVec.setWidth_eq]
  rfl

/-- The decrement modulo 256 is the 8-bit one. -/
theorem specNewSp_eq (s : State) : (Spec.reg s 7 + 255) % 256 = (pushAddress s).toNat := by
  rw [specReg_eq s (by decide), pushAddress, BitVec.toNat_sub]
  exact congrArg (· % 256) (Nat.add_comm ..)

theorem ofNat_pc_add (p : Word9) (n : Nat) : BitVec.ofNat 9 (p.toNat + 1 + n) = p + BitVec.ofNat 9 (1 + n) := by
  rw [Nat.add_assoc, BitVec.ofNat_add, BitVec.ofNat_toNat, BitVec.setWidth_eq]

/-! ### The cases of `Spec.step` -/

variable {s : State}

theorem specStep_of_stopped (h : s.state ≠ .running) : Spec.step s = s := by
  simp only [Spec.step, if_pos h]

theorem specStep_past_end (hr : ¬ s.state ≠ .running) (hp : 256 ≤ s.pc.toNat) :
    Spec.step s = s.takeFault (Trap.address s.pc.toNat) := by
  simp only [Spec.step, if_neg hr, if_pos hp]
  rfl

theorem specStep_of_unknown (hr : ¬ s.state ≠ .running) (hp : ¬ 256 ≤ s.pc.toNat)
    (hl : lookupOpcode config (s.byteAhead 0) = none) :
    Spec.step s = s.takeFault (Trap.opcode (s.byteAhead 0)) := by
  rw [State.byteAhead_zero] at hl ⊢
  simp only [Spec.step, if_neg hr, if_neg hp, operandCount_toNat, hl, Option.map_none, BitVec.ofNat_toNat]
  rfl

theorem specStep_of_operand_past_memory {e : Entry} (hr : ¬ s.state ≠ .running) (hp : s.pc.toNat ≤ 255)
    (hl : lookupOpcode config (s.byteAhead 0) = some e) (hn : 255 < s.pc.toNat + e.operandCount) :
    Spec.step s = s.takeFault (Trap.address 256) := by
  have hcount : e.operandCount ≤ 2 := by cases e <;> simp [Entry.operandCount]
  rw [State.byteAhead_zero] at hl
  simp only [Spec.step, if_neg hr, if_neg (by omega : ¬ 256 ≤ s.pc.toNat), operandCount_toNat, hl, Option.map_some]
  by_cases h1 : 1 ≤ e.operandCount ∧ 256 ≤ s.pc.toNat + 1
  · rw [if_pos h1, show s.pc.toNat + 1 = 256 by omega]
    rfl
  · rw [if_neg h1, if_pos (by omega), show s.pc.toNat + 2 = 256 by omega]
    rfl

/-- The machine runs, the byte at `pc` is `op`, and the `n` operand bytes after it are in memory. -/
structure AtOpcode (s : State) (op n : Nat) : Prop where
  notStopped : ¬ s.state ≠ .running
  opcode : (s.mem.read s.pc.toNat).toNat = op
  count : Spec.operandCount op = some n
  operands : s.pc.toNat + n ≤ 255

theorem AtOpcode.not_le {op n m : Nat} (h : AtOpcode s op n) (hm : 256 - n ≤ m) : ¬ m ≤ s.pc.toNat := by
  have := h.operands
  omega

theorem specStep_halt (h : AtOpcode s 0x01 0) : Spec.step s = (s.advance 0).halt := by
  simp only [Spec.step, if_neg h.notStopped, h.opcode, h.count, ofNat_pc_add]
  simp [h.not_le]
  rfl

theorem specStep_loadImmediate (h : AtOpcode s 0x82 2) : Spec.step s =
    if 8 ≤ (s.byteAhead 1).toNat then s.takeFault (Trap.register (s.byteAhead 1))
    else (Spec.setReg s (s.byteAhead 1).toNat (s.byteAhead 2).toNat).advance 2 := by
  simp only [Spec.step, if_neg h.notStopped, h.opcode, h.count, ofNat_pc_add]
  simp [h.not_le]
  rfl

theorem specStep_printRegister (h : AtOpcode s 0x47 1) : Spec.step s =
    if 8 ≤ (s.byteAhead 1).toNat then s.takeFault (Trap.register (s.byteAhead 1))
    else (Spec.emit s (Spec.reg s (s.byteAhead 1).toNat)).advance 1 := by
  simp only [Spec.step, if_neg h.notStopped, h.opcode, h.count, ofNat_pc_add]
  simp [h.not_le]
  rfl

theorem specStep_multiply (h : AtOpcode s 0xA2 2) : Spec.step s =
    if 8 ≤ (s.byteAhead 1).toNat then s.takeFault (Trap.register (s.byteAhead 1))
    else if 8 ≤ (s.byteAhead 2).toNat then s.takeFault (Trap.register (s.byteAhead 2))
    else (Spec.emit s (Spec.reg s (s.byteAhead 1).toNat * Spec.reg s (s.byteAhead 2).toNat)).advance 2 := by
  simp only [Spec.step, if_neg h.notStopped, h.opcode, h.count, ofNat_pc_add]
  simp [h.not_le]
  rfl

theorem specStep_push (h : AtOpcode s 0x45 1) : Spec.step s =
    if 8 ≤ (s.byteAhead 1).toNat then s.takeFault (Trap.register (s.byteAhead 1))
    else if (pushAddress s).toNat < s.plim.toNat then s.takeFault (Trap.overflow (pushAddress s))
    else ((Spec.setReg s 7 (pushAddress s).toNat).setMem (s.mem.write (pushAddress s).toNat (BitVec.ofNat 8
      (Spec.reg (Spec.setReg s 7 (pushAddress s).toNat) (s.byteAhead 1).toNat)))).advance 1 := by
  simp only [Spec.step, if_neg h.notStopped, h.opcode, h.count, ofNat_pc_add, specNewSp_eq]
  simp [h.not_le]
  rfl

theorem specStep_pop (h : AtOpcode s 0x46 1) : Spec.step s =
    if 8 ≤ (s.byteAhead 1).toNat then s.takeFault (Trap.register (s.byteAhead 1))
    else if Config.spInit.toNat ≤ s.sp.toNat then s.takeFault (Trap.underflow s.sp)
    else (Spec.setReg (Spec.setReg s (s.byteAhead 1).toNat (s.mem.read s.sp.toNat).toNat) 7
      (Spec.reg (Spec.setReg s (s.byteAhead 1).toNat (s.mem.read s.sp.toNat).toNat) 7 + 1)).advance 1 := by
  have hsp : Spec.reg s 7 = s.sp.toNat := specReg_eq s (by decide)
  simp only [Spec.step, if_neg h.notStopped, h.opcode, h.count, ofNat_pc_add, hsp]
  simp [h.not_le]
  rfl

theorem specStep_compare (h : AtOpcode s 0xA7 2) : Spec.step s =
    if 8 ≤ (s.byteAhead 1).toNat then s.takeFault (Trap.register (s.byteAhead 1))
    else if 8 ≤ (s.byteAhead 2).toNat then s.takeFault (Trap.register (s.byteAhead 2))
    else (s.setFlags ⟨decide (Spec.reg s (s.byteAhead 1).toNat = Spec.reg s (s.byteAhead 2).toNat),
      decide (Spec.reg s (s.byteAhead 1).toNat < Spec.reg s (s.byteAhead 2).toNat),
      decide (Spec.reg s (s.byteAhead 1).toNat > Spec.reg s (s.byteAhead 2).toNat)⟩).advance 2 := by
  simp only [Spec.step, if_neg h.notStopped, h.opcode, h.count, ofNat_pc_add]
  simp [h.not_le]
  rfl

/-- The transfer of the three jumps. -/
def specJump (s : State) (a : Byte) : State :=
  if 8 ≤ a.toNat then s.takeFault (Trap.register a) else s.jumpTo (BitVec.ofNat 9 (Spec.reg s a.toNat))

theorem specStep_jump (h : AtOpcode s 0x54 1) : Spec.step s = specJump s (s.byteAhead 1) := by
  simp only [Spec.step, if_neg h.notStopped, h.opcode, h.count, ofNat_pc_add]
  simp [h.not_le]
  rfl

theorem specStep_jumpIfEqual (h : AtOpcode s 0x55 1) : Spec.step s =
    if s.fl.e = true then specJump s (s.byteAhead 1) else s.advance 1 := by
  simp only [Spec.step, if_neg h.notStopped, h.opcode, h.count, ofNat_pc_add]
  simp [h.not_le]
  rfl

theorem specStep_jumpIfNotEqual (h : AtOpcode s 0x56 1) : Spec.step s =
    if s.fl.e = false then specJump s (s.byteAhead 1) else s.advance 1 := by
  simp only [Spec.step, if_neg h.notStopped, h.opcode, h.count, ofNat_pc_add]
  simp [h.not_le]
  rfl

/-! ### The model's step in each of these cases -/

theorem exec_loadImmediate_eq_specStep (h : AtOpcode s 0x82 2) :
    exec (.loadImmediate (s.byteAhead 1) (s.byteAhead 2)) s = .next (Spec.step s) := by
  rw [specStep_loadImmediate h]
  rcases exec_loadImmediate_cases (s.byteAhead 1) (s.byteAhead 2) s with ⟨ha, e⟩ | ⟨ha, e⟩
  · rw [e, if_neg ha.not_ge, specSetReg_eq s ha]
  · rw [e, if_pos ha]

theorem exec_printRegister_eq_specStep (h : AtOpcode s 0x47 1) :
    exec (.printRegister (s.byteAhead 1)) s = .next (Spec.step s) := by
  rw [specStep_printRegister h]
  rcases exec_printRegister_cases (s.byteAhead 1) s with ⟨ha, e⟩ | ⟨ha, e⟩
  · rw [e, if_neg ha.not_ge, specReg_eq s ha, specEmit_eq]
  · rw [e, if_pos ha]

theorem exec_multiply_eq_specStep (h : AtOpcode s 0xA2 2) :
    exec (.multiply (s.byteAhead 1) (s.byteAhead 2)) s = .next (Spec.step s) := by
  rw [specStep_multiply h]
  rcases exec_multiply_cases (s.byteAhead 1) (s.byteAhead 2) s with ⟨ha, hb, e⟩ | ⟨ha, e⟩ | ⟨ha, hb, e⟩
  · rw [e, if_neg ha.not_ge, if_neg hb.not_ge, specReg_eq s ha, specReg_eq s hb, specEmit_mul_eq]
  · rw [e, if_pos ha]
  · rw [e, if_neg ha.not_ge, if_pos hb]

theorem exec_push_eq_specStep (h : AtOpcode s 0x45 1) :
    exec (.push (s.byteAhead 1)) s = .next (Spec.step s) := by
  rw [specStep_push h]
  rcases exec_push_cases (s.byteAhead 1) s with ⟨ha, hl, e⟩ | ⟨ha, e⟩ | ⟨ha, hl, e⟩
  · rw [e, if_neg ha.not_ge, if_neg hl.not_gt, specSetReg_eq s (by decide), specReg_eq _ ha, BitVec.ofNat_toNat,
      BitVec.setWidth_eq]
    rfl
  · rw [e, if_pos ha]
  · rw [e, if_neg ha.not_ge, if_pos hl]

theorem exec_pop_eq_specStep (h : AtOpcode s 0x46 1) :
    exec (.pop (s.byteAhead 1)) s = .next (Spec.step s) := by
  rw [specStep_pop h]
  rcases exec_pop_cases (s.byteAhead 1) s with ⟨ha, hl, e⟩ | ⟨ha, e⟩ | ⟨ha, hl, e⟩
  · rw [e, if_neg ha.not_ge, if_neg hl.not_ge, specSetReg_eq s ha, specReg_eq _ (by decide),
      specSetReg_succ_eq _ (by decide)]
    rfl
  · rw [e, if_pos ha]
  · rw [e, if_neg ha.not_ge, if_pos hl]

theorem exec_compare_eq_specStep (h : AtOpcode s 0xA7 2) :
    exec (.compare (s.byteAhead 1) (s.byteAhead 2)) s = .next (Spec.step s) := by
  rw [specStep_compare h]
  rcases exec_compare_cases (s.byteAhead 1) (s.byteAhead 2) s with ⟨ha, hb, e⟩ | ⟨ha, e⟩ | ⟨ha, hb, e⟩
  · rw [e, if_neg ha.not_ge, if_neg hb.not_ge, compareFlags_eq_decide]
    simp only [specReg_eq s ha, specReg_eq s hb]
  · rw [e, if_pos ha]
  · rw [e, if_neg ha.not_ge, if_pos hb]

theorem exec_jump_eq_specJump (a : Byte) (s : State) : exec (.jump a) s = .next (specJump s a) := by
  unfold specJump
  rcases exec_jump_cases a s with ⟨ha, e⟩ | ⟨ha, e⟩
  · rw [e, if_neg ha.not_ge, specReg_eq s ha, BitVec.ofNat_toNat]
  · rw [e, if_pos ha]

theorem exec_jumpIfEqual_eq_specStep (h : AtOpcode s 0x55 1) :
    exec (.jumpIfEqual (s.byteAhead 1)) s = .next (Spec.step s) := by
  rw [specStep_jumpIfEqual h]
  cases he : s.fl.e with
  | true => exact (exec_jumpIfEqual_taken _ he).trans (exec_jump_eq_specJump _ s)
  | false => exact exec_jumpIfEqual_untaken _ he

theorem exec_jumpIfNotEqual_eq_specStep (h : AtOpcode s 0x56 1) :
    exec (.jumpIfNotEqual (s.byteAhead 1)) s = .next (Spec.step s) := by
  rw [specStep_jumpIfNotEqual h]
  cases he : s.fl.e with
  | true => exact exec_jumpIfNotEqual_untaken _ he
  | false => exact (exec_jumpIfNotEqual_taken _ he).trans (exec_jump_eq_specJump _ s)

/-- The fetched instruction does what the pseudocode does at its opcode byte. -/
theorem exec_entry_eq_specStep {e : Entry} (hr : ¬ s.state ≠ .running)
    (hl : lookupOpcode config (s.byteAhead 0) = some e) (hn : s.pc.toNat + e.operandCount ≤ 255) :
    exec (e.instr s.byteAhead) s = .next (Spec.step s) := by
  have hat : ∀ op : Byte, s.byteAhead 0 = op → AtOpcode s op.toNat e.operandCount := by
    rintro op rfl
    exact ⟨hr, rfl, by rw [operandCount_toNat, hl]; rfl, hn⟩
  rcases mem_dispatchTable_iff.1 (mem_dispatchTable_of_lookupOpcode hl) with ⟨hop, rfl⟩ | ⟨hop, rfl⟩ | ⟨hop, rfl⟩ |
    ⟨hop, rfl⟩ | ⟨hop, rfl⟩ | ⟨hop, rfl⟩ | ⟨hop, rfl⟩ | ⟨hop, rfl⟩ | ⟨hop, rfl⟩ | ⟨hop, rfl⟩
  · rw [specStep_halt (hat _ hop)]
    exact exec_halt s
  · exact exec_loadImmediate_eq_specStep (hat _ hop)
  · exact exec_printRegister_eq_specStep (hat _ hop)
  · exact exec_multiply_eq_specStep (hat _ hop)
  · exact exec_push_eq_specStep (hat _ hop)
  · exact exec_pop_eq_specStep (hat _ hop)
  · exact exec_compare_eq_specStep (hat _ hop)
  · rw [specStep_jump (hat _ hop)]
    exact exec_jump_eq_specJump _ s
  · exact exec_jumpIfEqual_eq_specStep (hat _ hop)
  · exact exec_jumpIfNotEqual_eq_specStep (hat _ hop)

/-- Settles O9: a stopped machine, the three faults of the fetch, and a fetched instruction. -/
theorem stepIsTheSpecStep : Obligations.StepIsTheSpecStep := by
  intro s
  by_cases hr : s.state = .running
  · have hrun : ¬ s.state ≠ .running := not_not.2 hr
    rcases fetch_cases s with ⟨hge, hf⟩ | ⟨hle, hl, hf⟩ | ⟨e, hle, hl, hn, hf⟩ | ⟨e, hl, hn, hf⟩
    · rw [step_of_fetch_fault hr hf, specStep_past_end hrun hge]
    · rw [step_of_fetch_fault hr hf, specStep_of_unknown hrun (by omega) hl]
    · rw [step_of_fetch_fault hr hf, specStep_of_operand_past_memory hrun hle hl hn]
    · rw [step_of_fetched hr hf, exec_entry_eq_specStep hrun hl hn]
  · rw [step_of_stopped hr, specStep_of_stopped hr]

end Sys2Proof.Machine
end

section
/-! SUPPORT. Which faults a step takes, and which it never does (60_exceptions.md sections 1 to 3). -/

namespace Sys2Proof.Machine

variable {s t : State} {i : Instr} {k : Trap}

/-! ### The faults of the fetch and of the handlers -/

/-- The fetch reports an address past memory, always 256 where `pc` is at most that, or a byte outside the table. -/
theorem fetch_error_cases (h : fetch s = .error k) :
    (k.kind = .addressFault ∧ (s.pc.toNat ≤ 256 → k.info = 256)) ∨
    ∃ op, k = Trap.opcode op ∧ op ∉ config.opcodes := by
  rcases fetch_cases s with ⟨hge, hf⟩ | ⟨-, hl, hf⟩ | ⟨e, -, -, -, hf⟩ | ⟨e, -, -, hf⟩ <;> cases hf.symm.trans h
  · exact .inl ⟨rfl, fun hle => by rw [show s.pc.toNat = 256 by omega]; rfl⟩
  · exact .inr ⟨_, rfl, lookupOpcode_eq_none_iff.1 hl⟩
  · exact .inl ⟨rfl, fun _ => rfl⟩

/-- A handler reports a register index of 8 or more, or a limit of the stack. -/
theorem handlerFault_cases {kind : FaultKind} {info : Word9} (h : Spec.handlerFault i s = some (kind, info)) :
    (∃ j : Byte, kind = .registerFault ∧ 8 ≤ j.toNat ∧ info = j.setWidth 9) ∨
    (kind = .underflowFault ∧ Config.spInit.toNat ≤ s.sp.toNat ∧ info = s.sp.setWidth 9) ∨
    (kind = .stackOverflow ∧ (pushAddress s).toNat < s.plim.toNat ∧ info = (pushAddress s).setWidth 9) := by
  unfold Spec.handlerFault at h
  split at h
  next j hj =>
    cases h
    exact .inl ⟨j, rfl, by simpa using List.find?_some hj, rfl⟩
  · split at h
    next a =>
      split at h
      next hlimit => cases h; exact .inr (.inl ⟨rfl, hlimit, rfl⟩)
      · cases h
    next a =>
      split at h
      next hlimit => cases h; exact .inr (.inr ⟨rfl, hlimit, rfl⟩)
      · cases h
    · cases h

theorem fetchFault_of_error (h : fetch s = .error k) : Spec.fetchFault s = some (k.kind, k.info) := by
  have hpc : s.pc.toNat ≤ 255 → ¬ 256 ≤ s.pc.toNat := by omega
  rcases fetch_cases s with ⟨hge, hf⟩ | ⟨hle, hl, hf⟩ | ⟨e, hle, hl, hn, hf⟩ | ⟨e, -, -, hf⟩ <;> cases hf.symm.trans h
  · simp [Spec.fetchFault, hge, Trap.address]
  · rw [State.byteAhead_zero] at hl
    simp only [Spec.fetchFault, if_neg (hpc hle), operandCount_toNat, hl, Option.map_none]
    rfl
  · rw [State.byteAhead_zero] at hl
    simp only [Spec.fetchFault, if_neg (hpc hle), operandCount_toNat, hl, Option.map_some, if_pos hn]
    rfl

theorem fetchFault_of_ok (h : fetch s = .ok i) : Spec.fetchFault s = none := by
  obtain ⟨e, hl, hn, -⟩ := fetch_eq_ok_iff.1 h
  rw [State.byteAhead_zero] at hl
  have hpc : ¬ 256 ≤ s.pc.toNat := by omega
  simp only [Spec.fetchFault, if_neg hpc, operandCount_toNat, hl, Option.map_some, if_neg hn.not_gt]

/-- Settles O10: the fetch's fault, then the handler's, then completion. -/
theorem faultPriorityIsExact : Obligations.FaultPriorityIsExact := by
  intro s hr
  cases hf : fetch s with
  | error k =>
    rw [fetchFault_of_error hf]
    exact step_of_fetch_fault hr hf
  | ok i =>
    rw [fetchFault_of_ok hf, step_of_fetched hr hf]
    refine ⟨i, rfl, ?_⟩
    have hexec := handlerFaultsAreExact i s
    rwa [hr] at hexec

/-! ### How a run can stop -/

/-- A running step that ends in Faulted took the fault of its fetch or of its handler. -/
theorem step_fault_cases (hr : s.state = .running) (h : step s = .next t) (ht : t.state = .faulted) :
    ∃ k, t = s.takeFault k ∧
      (fetch s = .error k ∨ ∃ i, fetch s = .ok i ∧ Spec.handlerFault i s = some (k.kind, k.info)) := by
  rcases step_cases h with ⟨hne, -⟩ | ⟨-, k, hf, rfl⟩ | ⟨-, i, hf, he⟩
  · exact absurd hr hne
  · exact ⟨k, rfl, .inl hf⟩
  · rcases exec_cases he with ⟨k, hk, rfl⟩ | ⟨-, hc⟩
    · exact ⟨k, rfl, .inr ⟨i, hf, hk⟩⟩
    · rw [hc.state_eq, hr] at ht
      split at ht <;> cases ht

/-- Settles O15: only the fetch reports an address, and it reports 256. -/
theorem addressFaultIsAlways256 : Obligations.AddressFaultIsAlways256 := by
  intro s t f hr hp h hf ht hkind
  obtain ⟨k, rfl, hfetch | ⟨i, -, hk⟩⟩ := step_fault_cases hr h ht <;> cases hf
  · rcases fetch_error_cases hfetch with ⟨-, hinfo⟩ | ⟨op, rfl, -⟩
    · exact ⟨hinfo hp, fun i hi => by cases hfetch.symm.trans hi⟩
    · cases hkind
  · rw [show k.kind = .addressFault from hkind] at hk
    rcases handlerFault_cases hk with ⟨j, hj, -⟩ | ⟨hj, -⟩ | ⟨hj, -⟩ <;> cases hj

/-- Settles O16: neither the fetch nor a handler reports one of the two kinds. -/
theorem noAluOrLoaderFaultInARun : Obligations.NoAluOrLoaderFaultInARun := by
  intro s t f hr h ht hf
  obtain ⟨⟨kind, info⟩, rfl, hfetch | ⟨i, -, hk⟩⟩ := step_fault_cases hr h ht <;> cases hf
  · rcases fetch_error_cases hfetch with ⟨rfl, -⟩ | ⟨op, ⟨⟩, -⟩
    · exact ⟨nofun, nofun⟩
    · exact ⟨nofun, nofun⟩
  · rcases handlerFault_cases hk with ⟨j, rfl, -⟩ | ⟨rfl, -⟩ | ⟨rfl, -⟩
    · exact ⟨nofun, nofun⟩
    · exact ⟨nofun, nofun⟩
    · exact ⟨nofun, nofun⟩

/-- Settles O14: HALT's arm, and that an instruction other than HALT keeps the execution state or takes a fault. -/
theorem onlyHaltEndsARunNormally : Obligations.OnlyHaltEndsARunNormally := by
  have hkeep : ∀ (i : Instr) (s t : State), exec i s = .next t → t.state ≠ s.state → i = .halt ∨ t.state = .faulted := by
    intro i s t h hne
    by_cases hi : i = .halt
    · exact .inl hi
    · rcases keepsControl_of_exec h hi with ⟨hstate, -⟩ | ⟨kind, info, rfl⟩
      · exact absurd hstate hne
      · exact .inr rfl
  refine ⟨fun s => ⟨_, exec_halt s, rfl, rfl⟩, hkeep, ?_⟩
  intro s t hr h ht
  rcases step_cases h with ⟨hne, -⟩ | ⟨-, k, -, rfl⟩ | ⟨-, i, hf, he⟩
  · exact absurd hr hne
  · cases ht
  · rcases hkeep i s t he (by rw [ht, hr]; nofun) with rfl | hfault
    · exact hf
    · cases ht.symm.trans hfault

/-! ### Runs -/

theorem step_next (s : State) : ∃ t, step s = .next t := ⟨_, stepIsTheSpecStep s⟩

theorem run_succ (n : Nat) (h : step s = .next t) :
    Host.Core.run Sys2Proof.core (n + 1) s = Host.Core.run Sys2Proof.core n t := by
  have hcore : Sys2Proof.core.step s = .next t := h
  simp only [Host.Core.run, hcore]

/-- Settles O13: a step of a stopped machine answers the same state, so any number of them does. -/
theorem stoppedMachineStaysStopped : Obligations.StoppedMachineStaysStopped := by
  intro s hs
  have hstep : step s = .next s := step_of_stopped (by rcases hs with h | h <;> rw [h] <;> nofun)
  refine ⟨fun n => ?_, rfl⟩
  induction n with
  | zero => rfl
  | succ n ih => exact (run_succ n hstep).trans ih

end Sys2Proof.Machine
end

section
/-! SUPPORT. The pc, the program limit and memory along a step (10_state.md sections 3 and 5, 20_memory.md). -/

namespace Sys2Proof.Machine

variable {s t : State} {i : Instr}

/-- A fetched instruction that completes leaves the pc in 0 to 256: past its bytes, or at its register's value. -/
theorem Completes.pc_toNat (h : Completes i s t) (hf : fetch s = .ok i) :
    match Spec.takenJump i s with
    | none => t.pc.toNat = s.pc.toNat + 1 + i.operandCount ∧ t.pc.toNat ≤ 256
    | some a => ∃ h : a.toNat < 8, t.pc.toNat = s.x[a.toNat].toNat := by
  have hpc := h.pc_eq
  cases htaken : Spec.takenJump i s with
  | some a =>
    rw [htaken] at hpc
    obtain ⟨ha, hpc⟩ := hpc
    exact ⟨ha, by rw [hpc]; exact State.jumpTo_setWidth_pc_toNat s _⟩
  | none =>
    rw [htaken] at hpc
    have hmem := fetch_within_memory hf
    have hadv : t.pc.toNat = s.pc.toNat + (1 + i.operandCount) := by
      rw [hpc]
      exact State.advance_pc_toNat (by omega)
    exact ⟨by omega, by omega⟩

theorem Completes.pc_le (h : Completes i s t) (hf : fetch s = .ok i) : t.pc.toNat ≤ 256 := by
  have hpc := h.pc_toNat hf
  split at hpc
  · exact hpc.2
  · obtain ⟨ha, hpc⟩ := hpc
    omega

/-- Settles O17: a step that does not end in Faulted completed its instruction. -/
theorem nonJumpsMovePcForward : Obligations.NonJumpsMovePcForward := by
  intro s t i hr hf h ht
  rw [step_of_fetched hr hf] at h
  rcases exec_cases h with ⟨k, -, rfl⟩ | ⟨-, hc⟩
  · exact absurd rfl ht
  · exact hc.pc_toNat hf

/-- Settles O43: of the three arms of a step only an instruction writes memory, of the instructions only PUSH, and PUSH
only at the new SP. -/
theorem onlyPushWritesMemory : Obligations.OnlyPushWritesMemory := by
  intro s t b h hb
  rcases step_cases h with ⟨-, rfl⟩ | ⟨-, k, -, rfl⟩ | ⟨hr, i, hf, he⟩
  · exact absurd rfl hb
  · exact absurd rfl hb
  · rcases mem_cases_of_exec he with hmem | ⟨a, v, rfl, -, hmem⟩
    · exact absurd (by rw [hmem]) hb
    · have haddr : (pushAddress s).toNat = (s.x[7] - 1).toNat := rfl
      refine ⟨a, hf, hr, by_contra fun hne => hb ?_⟩
      rw [hmem, haddr, Memory.read_write_of_ne _ v hne]

theorem plim_eq_of_step (h : step s = .next t) : t.plim = s.plim := by
  rcases step_cases h with ⟨-, rfl⟩ | ⟨-, k, -, rfl⟩ | ⟨-, i, -, he⟩
  · rfl
  · rfl
  · exact plim_eq_of_exec he

/-- The overflow check keeps a stored byte out of the program. -/
theorem read_eq_of_step {a : Nat} (h : step s = .next t) (ha : a < s.plim.toNat) : t.mem.read a = s.mem.read a := by
  rcases step_cases h with ⟨-, rfl⟩ | ⟨-, k, -, rfl⟩ | ⟨-, i, -, he⟩
  · rfl
  · rfl
  · rcases mem_cases_of_exec he with hmem | ⟨_, v, -, hlimit, hmem⟩
    · rw [hmem]
    · rw [hmem, Memory.read_write_of_ne _ v (by omega)]

/-- Settles O44: by induction on the number of steps. -/
theorem loadedImageIsNeverOverwritten : Obligations.LoadedImageIsNeverOverwritten := by
  intro n
  induction n with
  | zero =>
    rintro s t ⟨⟩
    exact ⟨rfl, fun a _ => rfl⟩
  | succ n ih =>
    intro s t h
    obtain ⟨u, hu⟩ := step_next s
    obtain ⟨hplim, hread⟩ := ih u t ((run_succ n hu).symm.trans h)
    have hplim_u := plim_eq_of_step hu
    refine ⟨hplim.trans hplim_u, fun a ha => ?_⟩
    rw [hread a (hplim_u ▸ ha), read_eq_of_step hu ha]

end Sys2Proof.Machine
end

section
/-! SUPPORT. The machine invariant along a step (10_state.md sections 3 to 5, 60_exceptions.md section 1). -/

namespace Sys2Proof.Machine

variable {s t : State} {i : Instr} {k : Trap}

/-! ### What a step records is possible -/

theorem plausible_of_fetch_error (hp : s.pc.toNat ≤ 256) (h : fetch s = .error k) (plim fpc : Word9) :
    FaultRecord.plausible plim ⟨k.kind, k.info, fpc⟩ := by
  rcases fetch_error_cases h with ⟨hkind, hinfo⟩ | ⟨op, rfl, hop⟩
  · rw [hkind, hinfo hp]
    rfl
  · have hinfo : (op.setWidth 9).toNat = op.toNat := BitVec.toNat_setWidth_of_le (by decide)
    have hback : (op.setWidth 9).setWidth 8 = op := by simp
    exact ⟨hinfo.trans_le (by omega), fun hmem => hop (hback ▸ hmem)⟩

theorem plausible_of_handlerFault {kind : FaultKind} {info : Word9}
    (h : Spec.handlerFault i s = some (kind, info)) (fpc : Word9) :
    FaultRecord.plausible s.plim ⟨kind, info, fpc⟩ := by
  have hwide : ∀ b : Byte, (b.setWidth 9).toNat = b.toNat := fun b => BitVec.toNat_setWidth_of_le (by decide)
  rcases handlerFault_cases h with ⟨j, rfl, hj, rfl⟩ | ⟨rfl, hlimit, rfl⟩ | ⟨rfl, hlimit, rfl⟩
  · exact ⟨by rwa [hwide], by rw [hwide]; omega⟩
  · exact ⟨by rwa [hwide], by rw [hwide]; omega⟩
  · exact ⟨by rwa [hwide], by rw [hwide]; omega⟩

/-! ### The invariant -/

theorem Inv.takeFault (hs : Inv s) (hk : FaultRecord.plausible s.plim ⟨k.kind, k.info, s.pc⟩) :
    Inv (s.takeFault k) where
  mem := hs.mem
  pc := hs.pc
  plim := hs.plim
  fl := hs.fl
  fault := ⟨fun _ => rfl, fun _ => rfl⟩
  record := by
    rintro f ⟨⟩
    exact ⟨rfl, hk⟩

theorem Inv.no_fault (hs : Inv s) (hr : s.state = .running) : s.fault = none := by
  rw [← Option.not_isSome_iff_eq_none, hs.fault, hr]
  nofun

theorem Completes.fl_cases (h : Completes i s t) : t.fl = s.fl ∨ ∃ va vb, t.fl = compareFlags va vb := by
  cases h with
  | compare ha hb => exact .inr ⟨_, _, rfl⟩
  | _ => exact .inl rfl

theorem Completes.state_ne_faulted (h : Completes i s t) (hr : s.state = .running) : t.state ≠ .faulted := by
  rw [h.state_eq, hr]
  split <;> nofun

theorem Completes.mem_wf (h : Completes i s t) (hs : s.mem.wf) : t.mem.wf := by
  rcases h.mem_cases with hmem | ⟨_, v, -, -, hmem⟩
  · rwa [hmem]
  · rw [hmem]
    exact Memory.wf_write _ _ v hs (pushAddress s).isLt

theorem Inv.completes (hs : Inv s) (hr : s.state = .running) (hf : fetch s = .ok i) (h : Completes i s t) : Inv t where
  mem := h.mem_wf hs.mem
  pc := h.pc_le hf
  plim := h.plim_eq ▸ hs.plim
  fl := by
    rcases h.fl_cases with hfl | ⟨va, vb, hfl⟩
    · exact hfl ▸ hs.fl
    · rcases compareFlags_cases va vb with hc | hc | hc <;> simp [hfl, hc]
  fault := by
    rw [h.fault_eq, hs.no_fault hr]
    exact ⟨nofun, fun ht => absurd ht (h.state_ne_faulted hr)⟩
  record := by
    rw [h.fault_eq, hs.no_fault hr]
    nofun

/-- Settles O50: a stopped machine stays, a fault taken is a possible one, and a completed instruction keeps each clause. -/
theorem stepKeepsTheInvariant : Obligations.StepKeepsTheInvariant := by
  intro s t hs h
  rcases step_cases h with ⟨-, rfl⟩ | ⟨-, k, hf, rfl⟩ | ⟨hr, i, hf, he⟩
  · exact hs
  · exact hs.takeFault (plausible_of_fetch_error hs.pc hf _ _)
  · rcases exec_cases he with ⟨k, hk, rfl⟩ | ⟨-, hc⟩
    · exact hs.takeFault (plausible_of_handlerFault hk _)
    · exact hs.completes hr hf hc

/-- Settles O49: each clause at the reset values. -/
theorem resetMeetsTheInvariant : Obligations.ResetMeetsTheInvariant where
  mem := reset_mem_wf
  pc := by decide
  plim := by decide
  fl := by decide
  fault := by decide
  record := nofun

end Sys2Proof.Machine
end

section
/-! SUPPORT. What a step does not read: a change of the state that no part of the step sees commutes with it
(10_state.md sections 5 and 6). -/

namespace Sys2Proof.Machine

/-- The change leaves what decides a step's arm, and commutes with what each arm does. -/
structure Unseen (g : State → State) (s : State) : Prop where
  state_eq : (g s).state = s.state
  fetch_eq : fetch (g s) = fetch s
  takeFault_eq : ∀ k, (g s).takeFault k = g (s.takeFault k)
  handlerFault_eq : ∀ i, fetch s = .ok i → Spec.handlerFault i (g s) = Spec.handlerFault i s
  completes : ∀ i t, fetch s = .ok i → Completes i s t → Completes i (g s) (g t)

theorem Unseen.step_eq {g : State → State} {s t : State} (hg : Unseen g s) (h : step s = .next t) :
    step (g s) = .next (g t) := by
  rcases step_cases h with ⟨hne, rfl⟩ | ⟨hr, k, hf, rfl⟩ | ⟨hr, i, hf, he⟩
  · exact step_of_stopped (hg.state_eq ▸ hne)
  · rw [step_of_fetch_fault (hg.state_eq.trans hr) (hg.fetch_eq.trans hf), hg.takeFault_eq]
  · rw [step_of_fetched (hg.state_eq.trans hr) (hg.fetch_eq.trans hf)]
    rcases exec_cases he with ⟨k, hk, rfl⟩ | ⟨-, hc⟩
    · rw [exec_of_handlerFault ((hg.handlerFault_eq i hf).trans hk), ← State.takeFault_eq_faulted, hg.takeFault_eq]
    · exact (hg.completes i t hf hc).exec_eq

/-- The state with values emitted before all of its own. -/
def State.emittedBefore (before : List OutWord) (s : State) : State := { s with out := before ++ s.out }

theorem handlerFault_emittedBefore (i : Instr) (before : List OutWord) (s : State) :
    Spec.handlerFault i (s.emittedBefore before) = Spec.handlerFault i s := by
  cases i <;> rfl

theorem State.emit_emittedBefore (s : State) (before : List OutWord) (v : OutWord) :
    (s.emittedBefore before).emit v = (s.emit v).emittedBefore before := by
  simp [State.emit, State.emittedBefore]

theorem Completes.emittedBefore {i : Instr} {s t : State} (h : Completes i s t) (before : List OutWord) :
    Completes i (s.emittedBefore before) (t.emittedBefore before) := by
  cases h with
  | halt => exact .halt
  | loadImmediate h => exact .loadImmediate h
  | printRegister h =>
    have hc := Completes.printRegister (s := s.emittedBefore before) h
    rw [State.emit_emittedBefore] at hc
    exact hc
  | multiply ha hb =>
    have hc := Completes.multiply (s := s.emittedBefore before) ha hb
    rw [State.emit_emittedBefore] at hc
    exact hc
  | push h hlimit => exact .push (s := s.emittedBefore before) h hlimit
  | pop h hlimit => exact .pop (s := s.emittedBefore before) h hlimit
  | compare ha hb => exact .compare ha hb
  | taken hi h => exact .taken (by cases i <;> exact hi) h
  | untaken hi hno => exact .untaken hi (by cases i <;> exact hno)

/-- Settles O47: the earlier output is seen by no part of the step. -/
theorem outputIsNeverRead : Obligations.OutputIsNeverRead := by
  intro s t before h
  exact Unseen.step_eq (g := State.emittedBefore before)
    { state_eq := rfl
      fetch_eq := rfl
      takeFault_eq := fun _ => rfl
      handlerFault_eq := fun i _ => handlerFault_emittedBefore i before s
      completes := fun _ _ _ hc => hc.emittedBefore before } h

/-- The state with another program limit. -/
def State.withPlim (n : Word9) (s : State) : State := { s with plim := n }

theorem handlerFault_withPlim {i : Instr} (n : Word9) (s : State) (hi : ∀ a, i ≠ .push a) :
    Spec.handlerFault i (s.withPlim n) = Spec.handlerFault i s := by
  cases i with
  | push a => exact absurd rfl (hi a)
  | _ => rfl

theorem Completes.withPlim {i : Instr} {s t : State} (h : Completes i s t) (n : Word9) (hi : ∀ a, i ≠ .push a) :
    Completes i (s.withPlim n) (t.withPlim n) := by
  cases h with
  | halt => exact .halt
  | loadImmediate h => exact .loadImmediate h
  | printRegister h => exact .printRegister h
  | multiply ha hb => exact .multiply ha hb
  | push h hlimit => exact absurd rfl (hi _)
  | pop h hlimit => exact .pop (s := s.withPlim n) h hlimit
  | compare ha hb => exact .compare ha hb
  | taken hi h => exact .taken (by cases i <;> exact hi) h
  | untaken hi hno => exact .untaken hi (by cases i <;> exact hno)

/-- Settles O48: the limit is seen by no part of a step that fetches another instruction than PUSH. -/
theorem plimIsReadByPushOnly : Obligations.PlimIsReadByPushOnly := by
  intro s t n hpush h
  have hne : ∀ i, fetch s = .ok i → ∀ a, i ≠ .push a := by
    rintro i hf a rfl
    exact hpush a hf
  exact Unseen.step_eq (g := State.withPlim n)
    { state_eq := rfl
      fetch_eq := rfl
      takeFault_eq := fun _ => rfl
      handlerFault_eq := fun i hf => handlerFault_withPlim n s (hne i hf)
      completes := fun i _ hf hc => hc.withPlim n (hne i hf) } h

end Sys2Proof.Machine
end

section
/-! SUPPORT. The fetch of a byte that PUSH stored (20_memory.md section 5). -/

namespace Sys2Proof.Machine

/-- A PUSH that left the machine out of Faulted stored the register and moved SP there. -/
theorem exec_push_completed {a : Byte} {s t : State} (h : exec (.push a) s = .next t) (ht : t.state ≠ .faulted) :
    ∃ ha : a.toNat < 8, t.mem = s.mem.write (pushAddress s).toNat ((s.setSp (pushAddress s)).getReg ⟨a.toNat, ha⟩) := by
  rcases exec_push_cases a s with ⟨ha, _, e⟩ | ⟨_, e⟩ | ⟨_, _, e⟩ <;> cases e.symm.trans h
  · exact ⟨ha, rfl⟩
  · exact absurd rfl ht
  · exact absurd rfl ht

/-- Settles O37: the byte at the new SP is the one stored, the bytes after it are the old ones, and the fetch there is
that of the byte's entry. -/
theorem pushedByteIsFetched : Obligations.PushedByteIsFetched := by
  rintro a s t u v h - ht rfl rfl
  obtain ⟨ha, hmem⟩ := exec_push_completed h ht
  set u : State := { t with pc := (s.x[7] - 1).setWidth 9 }
  have haddr : (pushAddress s).toNat = (s.x[7] - 1).toNat := rfl
  have hpc : u.pc.toNat = (s.x[7] - 1).toNat := BitVec.toNat_setWidth_of_le (by decide)
  have hop : u.byteAhead 0 = t.mem.read (s.x[7] - 1).toNat := by rw [State.byteAhead_zero, hpc]
  have hrest : ∀ k, 0 < k → u.byteAhead k = s.mem.read (u.pc.toNat + k) := by
    intro k hk
    have hread : u.byteAhead k = t.mem.read (u.pc.toNat + k) := rfl
    rw [hread, hmem, haddr, Memory.read_write_of_ne _ _ (by omega)]
  rw [← hop]
  refine ⟨?_, ?_, ?_, ?_, ?_⟩
  · intro _
    rw [hop, hmem, haddr, Memory.read_write_same, State.getReg_setSp]
    rfl
  · intro hl
    exact fetch_of_unknown (by omega) hl
  · intro i hl
    exact fetch_of_entry hl (show u.pc.toNat + 0 ≤ 255 by omega)
  · intro mk hl hp
    rw [fetch_of_entry hl (show u.pc.toNat + 1 ≤ 255 by omega), ← hrest 1 (by decide)]
    rfl
  · intro mk hl hp
    rw [fetch_of_entry hl (show u.pc.toNat + 2 ≤ 255 by omega), ← hrest 1 (by decide), ← hrest 2 (by decide)]
    rfl

end Sys2Proof.Machine
end

section
/-! SUPPORT. The canonical form of the memory (20_memory.md section 1). -/

namespace Sys2Proof.Machine

/-- The cells of a canonical memory are the addresses that do not read as unlisted, with what they read as. -/
theorem Memory.mem_iff_read {m : Memory} (hm : m.wf) (c : Host.Cell) :
    c ∈ m ↔ m.read c.1 = c.2 ∧ c.2 ≠ Memory.unlisted := by
  induction m with
  | nil => exact ⟨nofun, fun ⟨hread, hne⟩ => absurd hread.symm hne⟩
  | cons d m ih =>
    obtain ⟨hsorted, hcells⟩ := hm
    obtain ⟨hd, hsorted⟩ := List.pairwise_cons.1 hsorted
    have ih := ih ⟨hsorted, fun e he => hcells e (List.mem_cons_of_mem d he)⟩
    rw [Memory.read_cons, List.mem_cons, ih]
    by_cases h : c.1 = d.1
    · have hnone : ¬ (Memory.read m c.1 = c.2 ∧ c.2 ≠ Memory.unlisted) := fun hc => (hd c (ih.2 hc)).ne' h
      rw [if_pos h, or_iff_left hnone]
      constructor
      · rintro rfl
        exact ⟨rfl, (hcells c (List.mem_cons_self ..)).2⟩
      · rintro ⟨h2, -⟩
        exact Prod.ext h h2.symm
    · rw [if_neg h, or_iff_right (fun hcd => h (congrArg Prod.fst hcd))]

/-- Settles O36: reads decide the cells, and the rising order decides the list. -/
theorem equalReadsAreEqualMemories : Obligations.EqualReadsAreEqualMemories := by
  intro m n hm hn hread
  have hirrefl : Std.Irrefl fun c d : Host.Cell => c.1 < d.1 := ⟨fun c => lt_irrefl c.1⟩
  have hantisymm : Std.Antisymm fun c d : Host.Cell => c.1 < d.1 := ⟨fun c d h h' => absurd h h'.asymm⟩
  refine hm.1.eq_of_mem_iff hn.1 fun c => ?_
  rw [Memory.mem_iff_read hm, Memory.mem_iff_read hn, hread]

end Sys2Proof.Machine
end

section
/-! SUPPORT. The stack's round trip (44_stack.md section 4). -/

namespace Sys2Proof.Machine

theorem execAll_append {is js : List Instr} {s t : State} (h : Spec.execAll is s = .next t) :
    Spec.execAll (is ++ js) s = Spec.execAll js t := by
  induction is generalizing s with
  | nil => cases h; rfl
  | cons i is ih =>
    simp only [List.cons_append, Spec.execAll] at h ⊢
    split at h
    · exact ih h
    · cases h
    · cases h

theorem regByte_toNat (r : Fin 7) : (Spec.regByte r).toNat = r.val :=
  (BitVec.toNat_ofNat _ _).trans (Nat.mod_eq_of_lt (by omega))

/-- The registers come back, SP and the execution state return, and the cells from SP up are as before. -/
structure RoundTrip (srcs dsts : List (Fin 7)) (s t : State) : Prop where
  sp : t.x[7] = s.x[7]
  state : t.state = s.state
  regs : ∀ p ∈ srcs.zip dsts, t.x[p.2.val]'(by omega) = s.x[p.1.val]'(by omega)
  mem : ∀ a, s.x[7].toNat ≤ a → t.mem.read a = s.mem.read a

/-- What a PUSH of a register 0 to 6 changes, and the two fields the round trip needs unchanged. -/
structure Pushed (r : Fin 7) (s t : State) : Prop where
  x : t.x = s.x.set 7 (s.x[7] - 1)
  mem : t.mem = s.mem.write (s.x[7].toNat - 1) (s.x[r.val]'(by omega))
  state : t.state = s.state
  plim : t.plim = s.plim

/-- What a POP into a register 0 to 6 changes, and the two fields the round trip needs unchanged. -/
structure Popped (r : Fin 7) (s t : State) : Prop where
  x : t.x = (s.x.set r.val (s.mem.read s.x[7].toNat) (by omega)).set 7 (s.x[7] + 1)
  mem : t.mem = s.mem
  state : t.state = s.state

theorem exec_push_regByte (r : Fin 7) (s : State) (h : s.plim.toNat < s.x[7].toNat) :
    ∃ t, exec (.push (Spec.regByte r)) s = .next t ∧ Pushed r s t := by
  have hr := regByte_toNat r
  have hsp : (s.x[7] - 1).toNat = s.x[7].toNat - 1 := by bv_omega
  obtain ⟨hpush, -, -⟩ := pushStoresBelowTheStackPointer (Spec.regByte r) s
  refine ⟨_, hpush (by omega) (by omega), rfl, ?_, rfl, rfl⟩
  simp only [hr, hsp, if_neg (by omega : r.val ≠ 7)]

theorem exec_pop_regByte (r : Fin 7) (s : State) (h : s.x[7].toNat < 0xF4) :
    ∃ t, exec (.pop (Spec.regByte r)) s = .next t ∧ Popped r s t := by
  have hr := regByte_toNat r
  obtain ⟨hpop, -, -⟩ := popLoadsFromTheStackPointer (Spec.regByte r) s
  refine ⟨_, hpop (by omega) h, ?_, rfl, rfl⟩
  simp only [hr, if_neg (by omega : r.val ≠ 7)]

theorem Pushed.sp_toNat {r : Fin 7} {s t : State} (h : Pushed r s t) (hlow : 0 < s.x[7].toNat) :
    t.x[7].toNat = s.x[7].toNat - 1 := by
  simp only [h.x, Vector.getElem_set_self]
  bv_omega

/-- A push before and a pop after a round trip make a round trip: the cell at the new SP is above the inner one's. -/
theorem RoundTrip.cons {r d : Fin 7} {rs ds : List (Fin 7)} {s s' t' t : State} (h : RoundTrip rs ds s' t')
    (hd : d ∉ ds) (hlow : 0 < s.x[7].toNat) (hpush : Pushed r s s') (hpop : Popped d t' t) :
    RoundTrip (r :: rs) (d :: ds) s t := by
  have hsp := hpush.sp_toNat hlow
  have hcell : t'.mem.read t'.x[7].toNat = s.x[r.val]'(by omega) := by
    rw [h.sp, h.mem _ le_rfl, hsp, hpush.mem, Memory.read_write_same]
  have hne7 : ∀ e : Fin 7, (7 : Nat) ≠ e.val := fun e => by omega
  refine ⟨?_, ?_, ?_, ?_⟩
  · simp [hpop.x, h.sp, hpush.x]
  · rw [hpop.state, h.state, hpush.state]
  · intro p hp
    rcases List.mem_cons.1 hp with rfl | hp
    · simp [hpop.x, hcell, hne7]
    · have hne : d.val ≠ p.2.val := fun he => hd (Fin.ext he ▸ (List.of_mem_zip hp).2)
      have hin := h.regs p hp
      simp only [hpush.x, Vector.getElem_set_ne _ _ (hne7 p.1)] at hin
      simp [hpop.x, hne7, hne, hin]
  · intro a ha
    rw [hpop.mem, h.mem a (by omega), hpush.mem, Memory.read_write_of_ne _ _ (by omega)]

theorem execAll_roundTrip (srcs : List (Fin 7)) : ∀ (dsts : List (Fin 7)) (s : State), srcs.length = dsts.length →
    dsts.Nodup → s.x[7].toNat ≤ 0xF4 → s.plim.toNat + srcs.length ≤ s.x[7].toNat →
    ∃ t, Spec.execAll (srcs.map (fun r => Instr.push (Spec.regByte r)) ++
      dsts.reverse.map (fun r => Instr.pop (Spec.regByte r))) s = .next t ∧ RoundTrip srcs dsts s t := by
  induction srcs with
  | nil =>
    intro dsts s hlen _ _ _
    obtain rfl := List.eq_nil_of_length_eq_zero hlen.symm
    exact ⟨s, rfl, rfl, rfl, nofun, fun a _ => rfl⟩
  | cons r rs ih =>
    rintro (_ | ⟨d, ds⟩) s hlen hnodup hhigh hlow
    · cases hlen
    obtain ⟨hd, hnodup⟩ := List.nodup_cons.1 hnodup
    rw [List.length_cons] at hlow
    obtain ⟨s', hpush, hpushed⟩ := exec_push_regByte r s (by omega)
    have hsp := hpushed.sp_toNat (by omega)
    obtain ⟨t', hinner, htrip⟩ := ih ds s' (Nat.succ.inj hlen) hnodup (by omega) (by rw [hpushed.plim]; omega)
    obtain ⟨t, hpop, hpopped⟩ := exec_pop_regByte d t' (by rw [htrip.sp]; omega)
    refine ⟨t, ?_, htrip.cons hd (by omega) hpushed hpopped⟩
    have hlast : Spec.execAll [.pop (Spec.regByte d)] t' = .next t := by simp only [Spec.execAll, hpop]
    rw [List.reverse_cons, List.map_append, List.map_cons, List.cons_append, ← List.append_assoc, Spec.execAll, hpush]
    exact (execAll_append hinner).trans hlast

/-- Settles O32: by induction on the pairs, the first push around the rest and its pop after them. -/
theorem pushPopRoundTrip : Obligations.PushPopRoundTrip := by
  intro srcs dsts s hlen hnodup hhigh hlow
  obtain ⟨t, h, htrip⟩ := execAll_roundTrip srcs dsts s hlen hnodup hhigh hlow
  exact ⟨t, h, htrip.sp, htrip.state, htrip.regs⟩

end Sys2Proof.Machine
end

section
/-! SUPPORT. The loader, the launch state and the ports (70_reset_and_hazards.md sections 1 to 3). -/

namespace Sys2Proof.Machine

/-! ### The bytes an image stores -/

theorem storeBytes_cons_of_lt (m : Memory) {a : Nat} (b : Byte) (bs : List Byte) (ha : a < 256) :
    storeBytes m a (b :: bs) = storeBytes (m.write a b) (a + 1) bs := by
  rw [storeBytes, if_pos ha]

/-- Addresses below the first one stored read as before, the others as the bytes say or, past them, as before. -/
theorem read_storeBytes (bs : List Byte) : ∀ (m : Memory) (a : Nat), a + bs.length ≤ 256 → ∀ b,
    (storeBytes m a bs).read b = if b < a then m.read b else bs.getD (b - a) (m.read b) := by
  induction bs with
  | nil => intro m a _ b; simp [storeBytes]
  | cons v bs ih =>
    intro m a hlen b
    rw [List.length_cons] at hlen
    rw [storeBytes_cons_of_lt m v bs (by omega), ih _ _ (by omega), Memory.read_write]
    rcases lt_trichotomy b a with h | rfl | h
    · rw [if_pos (by omega), if_neg h.ne, if_pos h]
    · rw [if_pos (by omega), if_pos rfl, if_neg (lt_irrefl b), Nat.sub_self]
      rfl
    · rw [if_neg (by omega), if_neg h.ne', if_neg h.not_gt, show b - a = b - (a + 1) + 1 by omega]
      rfl

/-! ### The loader -/

theorem loadFrom_of_fits (image : List Byte) : ∀ (a : Nat) (s : State), a + image.length ≤ 256 →
    loadFrom a image s = .ok (s.setMem (storeBytes s.mem a image)) := by
  induction image with
  | nil => intro a s _; rfl
  | cons b bs ih =>
    intro a s hlen
    rw [List.length_cons] at hlen
    rw [loadFrom, memWrite_of_lt b s (by omega), storeBytes_cons_of_lt _ _ _ (by omega)]
    exact ih (a + 1) _ (by omega)

/-- An image that does not fit is refused at the first address past memory (R160). -/
theorem loadFrom_past_memory (image : List Byte) : ∀ (a : Nat) (s : State), a ≤ 256 → 256 < a + image.length →
    loadFrom a image s = .error (Trap.address 256) := by
  induction image with
  | nil => intro a s ha hlen; exact absurd hlen (Nat.not_lt.2 ha)
  | cons b bs ih =>
    intro a s ha hlen
    rw [List.length_cons] at hlen
    rcases ha.lt_or_eq with ha | rfl
    · rw [loadFrom, memWrite_of_lt b s ha]
      exact ih (a + 1) _ ha (by omega)
    · rw [loadFrom, memWrite_of_ge b s le_rfl]

/-- The launch state of an image that fits. -/
def launchState (image : List Byte) : State :=
  (State.reset.setMem (storeBytes [] 0 image)).setPlim image.length

theorem launch_of_fits {image : List Byte} (h : image.length ≤ 256) : State.launch image = .ok (launchState image) := by
  rw [State.launch, loadFrom_of_fits image 0 State.reset (by omega)]
  rfl

theorem launch_past_memory {image : List Byte} (h : 256 < image.length) :
    State.launch image = .error ⟨.addressFault, 256⟩ := by
  rw [State.launch, loadFrom_past_memory image 0 State.reset (by omega) (by omega)]
  rfl

theorem launchState_plim_toNat {image : List Byte} (h : image.length ≤ 256) :
    (launchState image).plim.toNat = image.length :=
  (BitVec.toNat_ofNat _ _).trans (Nat.mod_eq_of_lt (by omega))

/-- Settles O55: the loader's refusal. -/
theorem longImageIsRefused : Obligations.LongImageIsRefused := by
  intro image h
  exact launch_past_memory h

/-- Settles O54: the fields of the launch state, its memory read back byte by byte. -/
theorem launchStateOfAnImage : Obligations.LaunchStateOfAnImage := by
  intro image h
  refine ⟨launchState image, launch_of_fits h, rfl, rfl, rfl, rfl, rfl, rfl, launchState_plim_toNat h, fun a => ?_⟩
  have hread : (launchState image).mem.read a = (storeBytes [] 0 image).read a := rfl
  rw [hread, read_storeBytes image [] 0 (by omega), if_neg (Nat.not_lt_zero a)]
  rfl

/-- Settles O51: memory and `PLIM` are the image's, and the other clauses are those of reset. -/
theorem launchMeetsTheInvariant : Obligations.LaunchMeetsTheInvariant := by
  intro image h
  refine ⟨launchState image, launch_of_fits h, ?_⟩
  exact
    { mem := storeBytes_wf image [] 0 Memory.wf_nil
      pc := resetMeetsTheInvariant.pc
      plim := (launchState_plim_toNat h).trans_le h
      fl := resetMeetsTheInvariant.fl
      fault := resetMeetsTheInvariant.fault
      record := nofun }

/-- Settles O52: an image that launches fits, and its launch state has reset's pc and execution state. -/
theorem executionBeginsAtZero : Obligations.ExecutionBeginsAtZero := by
  refine ⟨rfl, rfl, ?_⟩
  intro image s h
  rcases Nat.lt_or_ge 256 image.length with hlen | hlen
  · cases (launch_past_memory hlen).symm.trans h
  · cases (launch_of_fits hlen).symm.trans h
    exact ⟨rfl, rfl⟩

/-- Settles O53: reset forgets the state it is taken in. -/
theorem resetLeaves : Obligations.ResetLeaves := by
  intro s
  refine ⟨?_, rfl, rfl, rfl, fun a ha => memRead_of_lt _ ha, rfl, rfl, rfl, rfl⟩
  intro r hr
  interval_cases r <;> rfl

/-! ### The ports -/

/-- The loader's writes through the port store the image, and what follows acts on the state they leave. -/
theorem actAll_loadActions (image : List Byte) : ∀ (a : Nat) (y : System) (hs : List HostAction), y.run = false →
    a + image.length ≤ 256 →
    System.actAll (loadActions a image ++ hs) y =
      System.actAll hs { y with core := y.core.setMem (storeBytes y.core.mem a image) } := by
  induction image with
  | nil => intro a y hs _ _; rfl
  | cons b bs ih =>
    intro a y hs hrun hlen
    rw [List.length_cons] at hlen
    have haddr : (BitVec.ofNat 9 a).toNat = a := (BitVec.toNat_ofNat _ _).trans (Nat.mod_eq_of_lt (by omega))
    have hwrite : y.loaderWrite (BitVec.ofNat 9 a) b = { y with core := y.core.setMem (y.core.mem.write a b) } := by
      have ha : a < 256 := by omega
      simp only [System.loaderWrite, hrun, haddr, if_pos ha]
      rfl
    have hstep : System.actAll (loadActions a (b :: bs) ++ hs) y =
        System.actAll (loadActions (a + 1) bs ++ hs) { y with core := y.core.setMem (y.core.mem.write a b) } := by
      rw [← hwrite]
      rfl
    rw [hstep, ih _ { y with core := y.core.setMem (y.core.mem.write a b) } _ hrun (by omega),
      storeBytes_cons_of_lt _ _ _ (by omega)]
    rfl

/-- Settles O56: reset gives a stopped system over the reset state, the writes store the image, and run launches it. -/
theorem portsRealiseTheLaunch : Obligations.PortsRealiseTheLaunch := by
  intro image y h
  refine ⟨launchState image, launch_of_fits h, ?_⟩
  have hreset : System.actAll (.reset :: loadActions 0 image ++ [.launch (BitVec.ofNat 9 image.length)]) y =
      System.actAll (loadActions 0 image ++ [.launch (BitVec.ofNat 9 image.length)]) ⟨State.reset, false, false⟩ := rfl
  rw [hreset, actAll_loadActions image 0 _ _ rfl (by omega)]
  rfl

end Sys2Proof.Machine
end

section
/-! SUPPORT. The lines of an image's text and the text as a whole (30_encoding.md rule R73). -/

namespace Sys2Proof.Machine

/-! ### The text of a line -/

theorem isBlank_ne_hash {ch : Char} (h : isBlank ch = true) : ch ≠ '#' := by
  rintro rfl
  cases h

theorem dropWhile_eq_self_of_head {p : Char → Bool} {text : List Char} (h : ∀ ch, text.head? = some ch → p ch = false) :
    text.dropWhile p = text := by
  cases text with
  | nil => rfl
  | cons c cs => exact List.dropWhile_cons_of_neg (by simp [h c rfl])

/-- White space around a text without white space at its ends is trimmed, and nothing else. -/
theorem trim_eq {before text after : List Char} (hblank : ∀ ch ∈ before ++ after, isBlank ch = true)
    (hends : ∀ ch, text.head? = some ch ∨ text.getLast? = some ch → isBlank ch = false) :
    (((before ++ text ++ after).dropWhile isBlank).reverse.dropWhile isBlank).reverse = text := by
  have hafter : ∀ ch ∈ after, isBlank ch = true := fun ch h => hblank ch (List.mem_append_right _ h)
  have hfront : (before ++ text ++ after).dropWhile isBlank = (text ++ after).dropWhile isBlank := by
    rw [List.append_assoc, List.dropWhile_append_of_pos fun ch h => hblank ch (List.mem_append_left _ h)]
  have hback : (text ++ after).reverse.dropWhile isBlank = text.reverse := by
    rw [List.reverse_append, List.dropWhile_append_of_pos fun ch h => hafter ch (List.mem_reverse.1 h)]
    exact dropWhile_eq_self_of_head fun ch h => hends ch (.inr (by rwa [List.head?_reverse] at h))
  rw [hfront]
  cases text with
  | nil =>
    rw [List.nil_append, List.dropWhile_eq_nil_iff.2 hafter]
    rfl
  | cons c cs =>
    have hself : (c :: cs ++ after).dropWhile isBlank = c :: cs ++ after :=
      dropWhile_eq_self_of_head fun ch h => hends ch (.inl h)
    rw [hself, hback, List.reverse_reverse]

/-- A line is a text between white space, with or without a comment after it. -/
theorem lineBody_eq {before text after comment line : List Char} (hblank : ∀ ch ∈ before ++ after, isBlank ch = true)
    (hhash : '#' ∉ text) (hends : ∀ ch, text.head? = some ch ∨ text.getLast? = some ch → isBlank ch = false)
    (hline : line = before ++ text ++ after ∨ line = before ++ text ++ after ++ '#' :: comment) :
    lineBody line = text := by
  have hkeep : ∀ ch ∈ before ++ text ++ after, (ch != '#') = true := by
    intro ch hch
    rw [List.append_assoc, List.mem_append, List.mem_append, or_left_comm, ← List.mem_append] at hch
    rcases hch with hch | hch
    · exact bne_iff_ne.2 fun h => hhash (h ▸ hch)
    · exact bne_iff_ne.2 (isBlank_ne_hash (hblank ch hch))
  have hfront : line.takeWhile (fun ch => ch != '#') = before ++ text ++ after := by
    rcases hline with rfl | rfl
    · exact List.takeWhile_eq_self_iff.2 hkeep
    · rw [List.takeWhile_append_of_pos hkeep, List.takeWhile_cons_of_neg (by simp), List.append_nil]
  simp only [lineBody, hfront]
  exact trim_eq hblank hends

/-! ### The value of a line -/

theorem isBinaryDigit_iff {ch : Char} : isBinaryDigit ch = true ↔ ch = '0' ∨ ch = '1' := by
  simp [isBinaryDigit]

theorem any_isBinaryDigit_iff {text : List Char} : text.any isBinaryDigit = true ↔ Spec.hasDigit text := by
  simp only [List.any_eq_true, isBinaryDigit_iff, Spec.hasDigit]
  constructor
  · rintro ⟨ch, h, rfl | rfl⟩
    · exact .inl h
    · exact .inr h
  · rintro (h | h)
    · exact ⟨_, h, .inl rfl⟩
    · exact ⟨_, h, .inr rfl⟩

theorem all_isBinaryDigit_iff {text : List Char} : text.all isBinaryDigit = true ↔ Spec.isNumeral text := by
  simp only [List.all_eq_true, isBinaryDigit_iff, Spec.isNumeral]

/-- The digits read from the left, after those that gave `n`. -/
theorem foldl_binary_eq (text : List Char) : ∀ n,
    text.foldl (fun n ch => 2 * n + (if ch == '1' then 1 else 0)) n = n * 2 ^ text.length + Spec.numeral text := by
  induction text with
  | nil => intro n; simp [Spec.numeral]
  | cons ch chs ih =>
    intro n
    rw [List.foldl_cons, ih, Spec.numeral, List.length_cons, pow_succ]
    by_cases h : ch = '1'
    · simp only [h, beq_self_eq_true, if_true]; ring
    · simp only [h, beq_false_of_ne h, if_false, Bool.false_eq_true]; ring

theorem binaryValue_eq_numeral (text : List Char) : binaryValue text = Spec.numeral text := by
  rw [binaryValue, foldl_binary_eq, Nat.zero_mul, Nat.zero_add]

/-- What a line is, by its text. -/
theorem parseLine_of_body {line text : List Char} (h : lineBody line = text) :
    (¬ Spec.hasDigit text → parseLine line = .ok none) ∧
    (Spec.hasDigit text → Spec.isNumeral text → Spec.numeral text ≤ 255 →
      parseLine line = .ok (some (BitVec.ofNat 8 (Spec.numeral text)))) ∧
    (Spec.hasDigit text → Spec.isNumeral text → 255 < Spec.numeral text →
      parseLine line = .error ⟨.loadFormatFault, 0⟩) ∧
    (Spec.hasDigit text → ¬ Spec.isNumeral text → parseLine line = .error ⟨.loadFormatFault, 0⟩) := by
  subst h
  have hdigit : Spec.hasDigit (lineBody line) → ¬ (lineBody line).any isBinaryDigit = false := fun hd => by
    rw [any_isBinaryDigit_iff.2 hd]
    nofun
  simp only [parseLine, binaryValue_eq_numeral]
  refine ⟨fun hno => ?_, fun hd hnum hle => ?_, fun hd hnum hlt => ?_, fun hd hnum => ?_⟩
  · rw [if_pos (Bool.eq_false_iff.2 fun hd => hno (any_isBinaryDigit_iff.1 hd))]
  · rw [if_neg (hdigit hd), if_pos ⟨all_isBinaryDigit_iff.2 hnum, Nat.lt_succ_of_le hle⟩]
  · rw [if_neg (hdigit hd), if_neg fun hc => by omega]
    rfl
  · rw [if_neg (hdigit hd), if_neg fun hc => hnum (all_isBinaryDigit_iff.1 hc.1)]
    rfl

/-! ### The line of a byte -/

/-- The value of the low `n` bits, most significant leftmost. -/
theorem numeral_bits (b : Byte) (n : Nat) :
    Spec.numeral ((List.range n).reverse.map fun k => if b.getLsbD k then '1' else '0') = b.toNat % 2 ^ n := by
  induction n with
  | zero => simp [Spec.numeral, Nat.mod_one]
  | succ n ih =>
    have hbit : (if (if b.getLsbD n then '1' else '0') = '1' then 2 ^ n else 0) = 2 ^ n * (b.toNat / 2 ^ n % 2) := by
      rw [← Nat.toNat_testBit, BitVec.testBit_toNat]
      cases b.getLsbD n <;> simp
    rw [List.range_succ, List.reverse_append, List.reverse_singleton, List.singleton_append, List.map_cons, Spec.numeral,
      ih, List.length_map, List.length_reverse, List.length_range, hbit, Nat.mod_pow_succ, Nat.add_comm]

theorem numeral_byteLine (b : Byte) : Spec.numeral (Spec.byteLine b) = b.toNat :=
  (numeral_bits b 8).trans (Nat.mod_eq_of_lt b.isLt)

theorem isNumeral_byteLine (b : Byte) : Spec.isNumeral (Spec.byteLine b) := by
  intro ch hch
  obtain ⟨k, -, rfl⟩ := List.mem_map.1 hch
  cases b.getLsbD k
  · exact .inl rfl
  · exact .inr rfl

theorem hasDigit_byteLine (b : Byte) : Spec.hasDigit (Spec.byteLine b) := by
  have hmem : (if b.getLsbD 0 then '1' else '0') ∈ Spec.byteLine b := List.mem_map.2 ⟨0, by simp, rfl⟩
  cases hb : b.getLsbD 0 <;> rw [hb] at hmem
  · exact .inl hmem
  · exact .inr hmem

/-- A numeral has neither a `#` nor white space. -/
theorem ne_hash_and_not_blank_of_isNumeral {text : List Char} (h : Spec.isNumeral text) {ch : Char} (hch : ch ∈ text) :
    ch ≠ '#' ∧ isBlank ch = false := by
  rcases h ch hch with rfl | rfl <;> decide

theorem parseLine_byteLine {b : Byte} {comment line : List Char} {m n : Nat}
    (hline : line = List.replicate m ' ' ++ Spec.byteLine b ++ List.replicate n ' ' ∨
      line = List.replicate m ' ' ++ Spec.byteLine b ++ List.replicate n ' ' ++ '#' :: comment) :
    parseLine line = .ok (some b) := by
  have hchars := fun ch => ne_hash_and_not_blank_of_isNumeral (isNumeral_byteLine b) (ch := ch)
  have hbody : lineBody line = Spec.byteLine b := by
    refine lineBody_eq ?_ (fun h => (hchars _ h).1 rfl) ?_ hline
    · intro ch hch
      rw [List.mem_append, List.mem_replicate, List.mem_replicate] at hch
      rcases hch with ⟨-, rfl⟩ | ⟨-, rfl⟩ <;> rfl
    · rintro ch (h | h)
      · exact (hchars ch (List.mem_of_mem_head? h)).2
      · exact (hchars ch (List.mem_of_getLast? h)).2
  obtain ⟨-, hvalue, -⟩ := parseLine_of_body hbody
  rw [hvalue (hasDigit_byteLine b) (isNumeral_byteLine b) (by rw [numeral_byteLine]; omega), numeral_byteLine,
    BitVec.ofNat_toNat, BitVec.setWidth_eq]

/-- Settles O57: the line's body is the text between the white space, and the text decides. -/
theorem imageLineIsItsByte : Obligations.ImageLineIsItsByte := by
  constructor
  · intro b comment m n
    refine ⟨parseLine_byteLine (comment := comment) (.inl rfl), parseLine_byteLine (.inr rfl), ?_⟩
    have hbody : lineBody ('#' :: comment) = [] :=
      lineBody_eq (before := []) (after := []) (comment := comment) nofun nofun (by simp) (.inr rfl)
    exact (parseLine_of_body hbody).1 (by simp [Spec.hasDigit])
  · intro before text after comment line hblank hhash hends hline
    exact parseLine_of_body (lineBody_eq hblank hhash hends hline)

/-! ### The text -/

theorem parseLine_error {line : List Char} {k : Trap} (h : parseLine line = .error k) : k = Trap.loadFormat := by
  simp only [parseLine] at h
  split at h
  · cases h
  · split at h
    · cases h
    · cases h; rfl

theorem parseImage_error {lines : List (List Char)} (h : ∃ line ∈ lines, parseLine line = .error Trap.loadFormat) :
    parseImage lines = .error Trap.loadFormat := by
  induction lines with
  | nil => obtain ⟨line, hline, -⟩ := h; cases hline
  | cons line lines ih =>
    have hrest : (∃ k, parseLine line = .error k) ∨ parseImage lines = .error Trap.loadFormat := by
      obtain ⟨bad, hbad, herr⟩ := h
      rcases List.mem_cons.1 hbad with rfl | hbad
      · exact .inl ⟨_, herr⟩
      · exact .inr (ih ⟨bad, hbad, herr⟩)
    unfold parseImage
    split
    next k hk => rw [parseLine_error hk]
    next hline => exact hrest.resolve_left (by simp [hline])
    next b hline => rw [hrest.resolve_left (by simp [hline])]

theorem parseImage_ok {lines : List (List Char)} : ∀ {cells : List (Option Byte)},
    lines.map parseLine = cells.map .ok → parseImage lines = .ok (cells.filterMap id) := by
  induction lines with
  | nil =>
    rintro (_ | ⟨cell, cells⟩) h
    · rfl
    · cases h
  | cons line lines ih =>
    rintro (_ | ⟨cell, cells⟩) h
    · cases h
    obtain ⟨hline, hrest⟩ := List.cons.inj h
    cases cell with
    | none => simp [parseImage, hline, ih hrest]
    | some b => simp [parseImage, hline, ih hrest]

/-- Settles O58: every line is read before the launch, and a line fails with LoadFormatFault only. -/
theorem textIsLaunchedOrRefused : Obligations.TextIsLaunchedOrRefused := by
  intro lines
  refine ⟨?_, ?_, ?_⟩
  · intro h
    rw [State.launchText, parseImage_error h]
    rfl
  · intro cells h
    rw [State.launchText, parseImage_ok h]
  · intro line _ k h
    exact parseLine_error h

end Sys2Proof.Machine
end
